-- ==== Sys2Proof/Word.lean ====
section
/-!
DEFINITION. One memory cell as a 64-bit word, and `wrap64` (spec 00_scope.md section 5.1): the unique signed
64-bit integer congruent to an exact result modulo 2^64.
-/

namespace Sys2Proof

/-- A cell of the memory: one signed 64-bit integer in two's complement, bit 63 the sign
(R5 XLEN, R11, R31). `BitVec.toInt` reads it as the `i64` the rules speak of, `BitVec.toNat` as the unsigned
value the registers PC and LEN hold. -/
abbrev Word := BitVec 64

/-- The least `i64` (00_scope.md section 5.1, I64_MIN). -/
def i64Min : Int := -9223372036854775808

/-- The greatest `i64` (00_scope.md section 5.1, I64_MAX). -/
def i64Max : Int := 9223372036854775807

/-- `wrap64(z)`: the `i64` congruent to `z` modulo 2^64 (00_scope.md section 5.1). -/
def wrap64 (z : Int) : Word := BitVec.ofInt 64 z

end Sys2Proof
end

