-- ==== Sys2Proof/Config.lean ====
section
/-!
DEFINITION. What an implementation fixes (00_scope.md R5, 92_eei_decisions.md) and the free values.
MEM_DEPTH, the one open parameter a rule reads, is the field `memDepth` of State (log entry 1); here stand its
limits and the value State.reset gives it.
-/

namespace Sys2Proof.Config

/-- STRIDE: cells per instruction (R5). -/
def stride : Nat := 4

/-- ENTRY: the cell where a run starts (R5, R14, R43). -/
def entry : Word := 0

/-- RESULT_CELL: the cell whose value is the result of a run (R5, R20, R43). -/
def resultCell : Nat := 0

/-- NOUN_CELL (R5, R43, R115). -/
def nounCell : Nat := 1

/-- VERB_CELL (R5, R43, R115). -/
def verbCell : Nat := 2

/-- The least MEM_DEPTH (R5). -/
def minDepth : Nat := 1

/-- The greatest MEM_DEPTH, 2^63 - 4 (R5). -/
def maxDepth : Nat := 9223372036854775804

/-- DESIGN CHOICE (log entry 1), unsafe for a claim that rests on it, and none does: the MEM_DEPTH that
State.reset carries. The spec leaves it open; the greatest legal depth refuses no legal program. -/
def resetDepth : Nat := maxDepth

/-- OVERFLOW_POLICY = WRAP (R5, R71, R72, D4): what the ALU does with an exact result. The hook that
93_implementation_defined.md U1 asks for (log entry 2). -/
def narrow : Int → Word := wrap64

/-- Free value number `n`: what the host port returns for an index at or above MEM_DEPTH, where there is no cell (R51;
log entry 4). No body: nothing is known of it. -/
opaque freeWord : Nat → Word

/-- The content that cell `index` is left with by reset number `resets`: unspecified (R111), and one value until
something writes the cell or the next reset comes, since reads are idempotent (R42; log entry 4). No body: nothing is
known of it. -/
opaque unspecifiedCell (resets index : Nat) : Word

/-- CYCLES(transaction), for a write (`true`) or a read (`false`): open, and no rule reads it
(R130; log entry 18). -/
opaque cycles : Bool → Nat

end Sys2Proof.Config
end

