-- ==== Sys2Proof/Syntax.lean ====
section
/-!
DEFINITION. The decoded instructions: one constructor for each row of spec/opcode_table.json (R2, R57).
-/

namespace Sys2Proof

/-- An instruction of the closed set {ADD, MUL, HLT} (R2). The operands are whole cells, each the absolute index of
a cell (R54, R56): source 1, source 2, destination. -/
inductive Instr where
  /-- `ADD a, b, d` (R69). -/
  | add (a b d : Word)
  /-- `MUL a, b, d` (R70). -/
  | mul (a b d : Word)
  /-- `HLT` (R76): it has no operands; the three cells after its opcode are not read (R55). -/
  | hlt
  deriving DecidableEq, Repr

end Sys2Proof
end

