-- ==== Sys2Proof/WellFormed.lean ====
section
/-!
DEFINITION. Well-formedness of what is given to the machine: instructions, program images (R12, R119 LenLegal) and
the slots an assembler lays out (R65). Each check is a Bool, so that `decide` runs on it.
-/

namespace Sys2Proof

/-- Every instruction is well formed: "Operand fields have no reserved values; any `i64` is a well-formed field"
(R60). Out-of-range values are the bounds checks' business. -/
def Instr.wf : Instr → Bool
  | .add _ _ _ => true
  | .mul _ _ _ => true
  | .hlt => true

/-- A program image is not empty: "length must be non-empty" (R12). -/
def imageNonEmpty (cells : List Word) : Bool := !cells.isEmpty

/-- A program image fits the array of `depth` cells: `LEN <= MEM_DEPTH` (R12). -/
def imageFits (depth : Nat) (cells : List Word) : Bool := decide (cells.length ≤ depth)

/-- MEM_DEPTH is legal (R5). -/
def depthLegal (depth : Nat) : Bool := decide (Config.minDepth ≤ depth) && decide (depth ≤ Config.maxDepth)

/-- A legal image for an array of `depth` cells (premise LenLegal, R119). -/
def imageWf (depth : Nat) (cells : List Word) : Bool :=
  depthLegal depth && (imageNonEmpty cells && imageFits depth cells)

/-- A position at which a run can decode an instruction: a multiple of 4 (R53, R65). -/
def slotAligned (p : Nat) : Bool := p % Config.stride == 0

end Sys2Proof
end

