-- ==== Sys2Proof/Decode.lean ====
section
/-!
DEFINITION. The decoder (30_encoding.md R53 to R61, 41_halt_and_sequencing.md R78), the encoder after it, the
opcode table's numbering of a slot's bits, and the listing lines of R64.
-/

namespace Sys2Proof

/-! ### The opcode map (R57) -/

/-- The opcode cell value of ADD (R57). -/
def opcodeAdd : Word := 0x0000000000000001

/-- The opcode cell value of MUL (R57). -/
def opcodeMul : Word := 0x0000000000000002

/-- The opcode cell value of HLT (R57). -/
def opcodeHlt : Word := 0x0000000000000063

/-- The decoded form of an opcode cell: "closed enum over {Add, Multiply, Halt, Unknown(code)}" (R57, R78). -/
inductive Decoded where
  | add
  | multiply
  | halt
  | unknown (code : Word)
  deriving DecidableEq, Repr

/-- The decoder's three equality comparators on all 64 bits of the opcode latch (R57, R78): `is_add`, `is_mul`,
`is_halt`, and `is_unknown` where none of them holds. -/
def decodeOpcode (op : Word) : Decoded :=
  if op = opcodeAdd then .add
  else if op = opcodeMul then .multiply
  else if op = opcodeHlt then .halt
  else .unknown op

/-- Why cells do not decode to an instruction. -/
inductive DecodeError where
  /-- There is no opcode cell to read. -/
  | noOpcodeCell
  /-- The opcode is none of 1, 2, 99 (R58). -/
  | unknownOpcode (value : Word)
  /-- An ADD whose three field cells are not all there. -/
  | addFieldsMissing
  /-- A MUL whose three field cells are not all there. -/
  | mulFieldsMissing
  deriving DecidableEq, Repr

/-- What decoding gives: an instruction, or the reason there is none. -/
inductive DecodeResult where
  | instr (i : Instr)
  | error (e : DecodeError)
  deriving DecidableEq, Repr

/-- The instruction, where there is one. -/
def DecodeResult.instr? : DecodeResult → Option Instr
  | .instr i => some i
  | .error _ => none

/-- Decode a slot, its cells in rising order (R54, R55, R57). Only the opcode cell is examined for HLT, so `[99]` is
one. Total: every list of cells gives an instruction or a named reason. -/
def decode : List Word → DecodeResult
  | [] => .error .noOpcodeCell
  | op :: fields =>
    match decodeOpcode op with
    | .add =>
      match fields with
      | a :: b :: d :: _ => .instr (.add a b d)
      | _ => .error .addFieldsMissing
    | .multiply =>
      match fields with
      | a :: b :: d :: _ => .instr (.mul a b d)
      | _ => .error .mulFieldsMissing
    | .halt => .instr .hlt
    | .unknown v => .error (.unknownOpcode v)

/-! ### The encoder (R54, R55, R64) -/

/-- The cells of an instruction's slot (R64). DESIGN CHOICE (log entry 13): the three cells after the opcode of a HLT,
which the spec says may hold anything (R55), are zeros. -/
def encode : Instr → List Word
  | .add a b d => [opcodeAdd, a, b, d]
  | .mul a b d => [opcodeMul, a, b, d]
  | .hlt => [opcodeHlt, 0, 0, 0]

/-! ### A slot as one 256-bit number, as spec/opcode_table.json numbers its bits

R54: "Seen as one 256-bit word with cell `p` in the highest bits": the opcode cell is bits [255:192], `a` [191:128],
`b` [127:64], `d` [63:0]. -/

/-- Cell `k` (0 the opcode cell, 3 the destination field) of the 256-bit number `w` (R54). -/
def tableCell (w k : Nat) : Word := BitVec.ofNat 64 (w >>> (64 * (3 - k)))

/-- The four cells of a slot whose first `nbits` bits, the opcode cell's first, are `w`; the rest of the slot is
zero (log entry 11). The table gives every row 256 bits. -/
def tableCells (nbits w : Nat) : List Word :=
  let slot := w <<< (256 - nbits)
  [tableCell slot 0, tableCell slot 1, tableCell slot 2, tableCell slot 3]

/-- Four cells as the 256-bit number of R54. -/
def tableWord (c0 c1 c2 c3 : Word) : Nat :=
  ((c0.toNat * 2 ^ 64 + c1.toNat) * 2 ^ 64 + c2.toNat) * 2 ^ 64 + c3.toNat

/-- The instruction's slot as the 256-bit number of R54. -/
def encodeTableWord : Instr → Nat
  | .add a b d => tableWord opcodeAdd a b d
  | .mul a b d => tableWord opcodeMul a b d
  | .hlt => tableWord opcodeHlt 0 0 0

/-- The instruction the decoder reads from a slot whose bits are `w`, numbered as spec/opcode_table.json numbers
them (log entry 11). -/
def decodeTableWord (nbits w : Nat) : Option Instr := (decode (tableCells nbits w)).instr?

/-! ### Listing lines (R64, R65) -/

/-- One line of a listing (R64). -/
inductive Line where
  /-- `ADD a, b, d`, `MUL a, b, d` or `HLT`. -/
  | instr (i : Instr)
  /-- `HLT x, y, z`: stop; `x, y, z` are ignored padding or data. -/
  | hltData (x y z : Word)
  /-- `HLT` with no further cells after it. -/
  | hltLast
  /-- `.cell v`: one data cell. -/
  | cell (v : Word)
  deriving DecidableEq, Repr

/-- The cells a line emits (R64). -/
def Line.cells : Line → List Word
  | .instr i => encode i
  | .hltData x y z => [opcodeHlt, x, y, z]
  | .hltLast => [opcodeHlt]
  | .cell v => [v]

/-- The memory image of a listing: "the concatenation of the emitted cells" (R65). -/
def assemble : List Line → List Word
  | [] => []
  | l :: ls => l.cells ++ assemble ls

end Sys2Proof
end

