-- ==== Sys2Proof/Machine/State.lean ====
section
/-!
DEFINITION. The machine's state as plain data (10_state.md), the reasons a step can stop, and the state after reset.
INVENTORY.md lists every field with its rule.
-/

namespace Sys2Proof.Machine

/-- MEM (R11, R31): the cells that hold a value, as (index, content) pairs in rising order of index. A cell that is
not listed holds no value: nothing has written it since reset (R111; log entry 3). -/
abbrev Memory := List (Nat × Word)

/-- The canonical form: indices strictly rise. (An unlisted cell reads as no value, so no listed one equals it.) -/
abbrev Memory.Wf (m : Memory) : Prop := m.Pairwise (fun x y => x.1 < y.1)

/-- STATUS (R17); the values 5, 6, 7 are never produced (log entry 17). -/
inductive Status where
  | idle
  | running
  | halted
  | ended
  | fault
  deriving DecidableEq, Repr

/-- ERR_CODE (R18); the value 7 is never produced (log entry 17). -/
inductive ErrCode where
  | none
  | programPosition
  | modifyPosition
  | argumentPosition
  | unknownOpcode
  | pastEnd
  | invalidLength
  deriving DecidableEq, Repr

/-- The six faults of the hardware with their payloads (R87). Raising one is no stop of the model: it is a next state,
with `STATUS = FAULT` and the record in the error registers (R96, `takeFault`). A position is a natural number, an
address or an opcode the raw content of a cell (R19). -/
inductive HwFault where
  /-- Code 1 (R88). -/
  | programPosition (pos : Nat)
  /-- Code 2 (R89). -/
  | modifyPosition (addr : Word)
  /-- Code 3 (R90). -/
  | argumentPosition (pos : Nat) (addr : Word)
  /-- Code 4 (R91). -/
  | unknownOpcode (value : Word) (pos : Nat)
  /-- Code 5 (R92). -/
  | pastEnd (index : Nat)
  /-- Code 6 (R93). -/
  | invalidLength (len : Word)
  deriving DecidableEq, Repr

/-- The latches of the datapath (R26, R28, R75): not visible to the host, and carrying nothing from one step to the
next. -/
structure Latches where
  op : Word
  a : Word
  b : Word
  d : Word
  va : Word
  vb : Word
  r : Word
  deriving DecidableEq, Repr

/-- One transaction of the memory port (R50): `addr` a cell index, `we` true for a write, `data` the port's `wdata` of
a write and its `rdata` of a read. -/
structure Transaction where
  addr : Nat
  we : Bool
  data : Word
  deriving DecidableEq, Repr

/-- Which command is in progress while `STATUS = RUNNING` (the model's own; log entry 8): a run (START, START_NV, R80)
or one step (STEP, R116). -/
inductive Mode where
  | run
  | single
  deriving DecidableEq, Repr

/-- The ten host-visible registers (R16). -/
inductive HostReg where
  | cmd
  | status
  | len
  | pc
  | noun
  | verb
  | result
  | errCode
  | errInfo0
  | errInfo1
  deriving DecidableEq, Repr

/-- What the host can do at its port (R10, R16, R51). Writing CMD issues a command (R22). -/
inductive HostAction where
  | readReg (reg : HostReg)
  | writeReg (reg : HostReg) (value : Word)
  | readCell (index : Nat)
  | writeCell (index : Nat) (value : Word)
  deriving DecidableEq, Repr

/-- The state of the machine. -/
structure State where
  /-- MEM (R11). -/
  mem : Memory
  /-- LEN, unsigned (R12). -/
  len : Word
  /-- PC, unsigned (R14). -/
  pc : Word
  /-- STATUS (R17). -/
  status : Status
  /-- NOUN (R21). -/
  noun : Word
  /-- VERB (R21). -/
  verb : Word
  /-- RESULT (R20). -/
  result : Word
  /-- ERR_CODE (R18). -/
  errCode : ErrCode
  /-- ERR_INFO0 (R19). -/
  errInfo0 : Word
  /-- ERR_INFO1 (R19). -/
  errInfo1 : Word
  /-- The datapath's latches (R26). -/
  latch : Latches
  /-- Which command is in progress (the model's own; log entry 8). -/
  mode : Mode
  /-- The memory port's transactions of the latest transition, in order (R49, R50; log entry 10). -/
  port : List Transaction
  /-- MEM_DEPTH (R5, R11): open; no rule writes it (log entry 1). -/
  memDepth : Nat
  /-- What the host does next, in order (the model's own; log entry 6). -/
  host : List HostAction
  /-- What the host port returned last (the model's own; log entry 6). -/
  hostData : Word
  /-- The reset events to come (R109): each entry is the number of transitions before it (the model's own; log
  entry 7). -/
  resets : List Nat
  /-- How many free values were drawn (the model's own; log entry 4). -/
  freeCount : Nat
  /-- How many resets there were: which unspecified contents the unwritten cells hold (R111; the model's own; log entry
  4). -/
  resetCount : Nat
  deriving DecidableEq, Repr

/-- Why the model stops. -/
inductive Fault where
  /-- The datapath reads cell `index`, below LEN, which nothing has written since reset: it holds no value (R111).
  Raised by `memRead`, `readCellWith` and the fetch. Safe: the model stops where the hardware goes on with a
  value no rule gives (log entry 3). -/
  | unwrittenCell (index : Nat)
  deriving DecidableEq, Repr

/-- Why the model has no meaning for an instruction. -/
inductive Refusal where
  /-- An instruction without a meaning, by its mnemonic. Raised by no arm of `exec`: every instruction has its
  meaning. Safe. -/
  | notModelled (mnemonic : String)
  deriving DecidableEq, Repr

/-- The latches after reset: the spec leaves them unspecified (R28). DESIGN CHOICE (log entry 9): zeros. -/
def Latches.reset : Latches :=
  { op := 0, a := 0, b := 0, d := 0, va := 0, vb := 0, r := 0 }

/-- The machine right after reset (R28, R109), with nothing pending outside it. The values of `latch`, `mode`, `port`,
`memDepth`, `host`, `hostData`, `resets`, `freeCount` and `resetCount` are the model's (log entries 1 and 4 to 10). -/
def State.reset : State :=
  { mem := []
    len := 0
    pc := 0
    status := .idle
    noun := 0
    verb := 0
    result := 0
    errCode := .none
    errInfo0 := 0
    errInfo1 := 0
    latch := Latches.reset
    mode := .run
    port := []
    memDepth := Config.resetDepth
    host := []
    hostData := 0
    resets := []
    freeCount := 0
    resetCount := 0 }

end Sys2Proof.Machine
end

