-- ==== Sys2Proof/Machine/Memory.lean ====
section
/-!
DEFINITION. The memory array's two raw operations (00_scope.md section 5.2): read one cell, replace one cell (R31, R42).
-/

namespace Sys2Proof.Machine

/-- The content of cell `i`, or nothing where no write has reached it since reset (R111). -/
def Memory.read : Memory → Nat → Option Word
  | [], _ => none
  | (j, w) :: rest, i => if i = j then some w else Memory.read rest i

/-- Replace the content of cell `i`, keeping the canonical form. -/
def Memory.write : Memory → Nat → Word → Memory
  | [], i, v => [(i, v)]
  | (j, w) :: rest, i, v =>
    if i < j then (i, v) :: (j, w) :: rest
    else if i = j then (i, v) :: rest
    else (j, w) :: Memory.write rest i v

end Sys2Proof.Machine
end

