-- ==== Sys2Proof/Machine/Ops.lean ====
section
/-!
DEFINITION. The named operations over the state: the memory port, taking a fault and leaving it, the ends of a step, and
the small result type the datapath's pseudocode is written in.
-/

namespace Sys2Proof.Machine

/-! ### Codes and payloads -/

/-- The three bits of STATUS (R17). -/
def Status.code : Status → BitVec 3
  | .idle => 0
  | .running => 1
  | .halted => 2
  | .ended => 3
  | .fault => 4

/-- The three bits of ERR_CODE (R18). -/
def ErrCode.code : ErrCode → BitVec 3
  | .none => 0
  | .programPosition => 1
  | .modifyPosition => 2
  | .argumentPosition => 3
  | .unknownOpcode => 4
  | .pastEnd => 5
  | .invalidLength => 6

/-- What a fault puts into ERR_CODE (R18, R87). -/
def HwFault.kind : HwFault → ErrCode
  | .programPosition _ => .programPosition
  | .modifyPosition _ => .modifyPosition
  | .argumentPosition _ _ => .argumentPosition
  | .unknownOpcode _ _ => .unknownOpcode
  | .pastEnd _ => .pastEnd
  | .invalidLength _ => .invalidLength

/-- What a fault puts into ERR_INFO0 (R19). -/
def HwFault.info0 : HwFault → Word
  | .programPosition pos => BitVec.ofNat 64 pos
  | .modifyPosition addr => addr
  | .argumentPosition pos _ => BitVec.ofNat 64 pos
  | .unknownOpcode value _ => value
  | .pastEnd index => BitVec.ofNat 64 index
  | .invalidLength len => len

/-- What a fault puts into ERR_INFO1 (R19). -/
def HwFault.info1 : HwFault → Word
  | .programPosition _ => 0
  | .modifyPosition _ => 0
  | .argumentPosition _ addr => addr
  | .unknownOpcode _ pos => BitVec.ofNat 64 pos
  | .pastEnd _ => 0
  | .invalidLength _ => 0

/-! ### Derived values -/

/-- BOUND = LEN - (LEN mod 4) (R24, R79). -/
def State.bound (s : State) : Nat := s.len.toNat - s.len.toNat % Config.stride

/-- The launch commands' length test (R93): LEN is 0 or above MEM_DEPTH. -/
def State.lenIllegal (s : State) : Bool := s.len == 0 || decide (s.memDepth < s.len.toNat)

/-- Cell `p` as a cell of the program: nothing where `p` is not below LEN (R11) or nothing has written it (R111). -/
def State.programCell (s : State) (p : Nat) : Option Word :=
  if p < s.len.toNat then s.mem.read p else none

/-! ### The result of a piece of pseudocode -/

/-- A piece of the datapath's pseudocode gives a value, raises a hardware fault (R96), or stops the model. -/
inductive Res (α : Type) where
  | ok (v : α) (s : State)
  | raise (f : HwFault) (s : State)
  | stop (f : Fault)

/-- One piece after another: "Nothing after [a raise] in the pseudocode is performed" (00_scope.md section 5.2). -/
def Res.andThen {α β : Type} (x : Res α) (k : α → State → Res β) : Res β :=
  match x with
  | .ok v s => k v s
  | .raise f s => .raise f s
  | .stop f => .stop f

/-! ### The memory port (R49, R50) -/

/-- Put one transaction at the end of the transition's record. -/
def State.log (t : Transaction) (s : State) : State := { s with port := s.port ++ [t] }

/-- Write a latch (R26). -/
def State.latched (f : Latches → Latches) (s : State) : State := { s with latch := f s.latch }

/-- `MemRead(i, 1)` by the datapath. A cell nothing has written since reset holds no value: the model stops (R111; log
entry 3). -/
def memRead (i : Nat) (s : State) : Res Word :=
  match s.mem.read i with
  | some v => .ok v (s.log { addr := i, we := false, data := v })
  | none => .stop (.unwrittenCell i)

/-- `MemWrite(i, 1, v)` by the datapath. -/
def memWrite (i : Nat) (v : Word) (s : State) : State :=
  State.log { addr := i, we := true, data := v } { s with mem := s.mem.write i v }

/-! ### Faults: entry and the way out -/

/-- Fault entry (R96): the record is written, `STATUS <- FAULT`; MEM, PC and RESULT are kept. -/
def takeFault (f : HwFault) (s : State) : State :=
  { s with status := .fault, errCode := f.kind, errInfo0 := f.info0, errInfo1 := f.info1 }

/-- ERR_CODE, ERR_INFO0, ERR_INFO1 <- 0 (R18, R19). -/
def clearRecord (s : State) : State :=
  { s with errCode := .none, errInfo0 := 0, errInfo1 := 0 }

/-- CLEAR, the way out of FAULT, HALTED and ENDED (R97, R117); there is no return from a fault (R97). MEM, LEN, NOUN and
VERB are left as they are. -/
def clearCommand (s : State) : State :=
  { clearRecord s with status := .idle, pc := 0, result := 0 }

/-- The reset event (R109, R111): every register at the value of R28, the memory unspecified anew (`resetCount`). The
parameter MEM_DEPTH stays, and so does what lies outside the block: the host with the data it read, and the reset events
to come. -/
def hardReset (s : State) : State :=
  { State.reset with
    memDepth := s.memDepth
    host := s.host
    hostData := s.hostData
    resets := s.resets.tail
    freeCount := s.freeCount
    resetCount := s.resetCount + 1 }

/-! ### The ends of a step -/

/-- STATUS after PROCEED: a run goes on (R80), a single step is over (R116). -/
def State.statusAfterProceed (s : State) : Status :=
  match s.mode with
  | .run => s.status
  | .single => .idle

/-- PROCEED: `pc <- PC + 4` (R81, R116). -/
def proceed (s : State) : State :=
  { s with pc := s.pc + 4, status := s.statusAfterProceed }

/-- A successful end (R80, R116): `STATUS <- st`, `RESULT <- MemRead(0, 1)`; PC is kept (R83). -/
def finish (st : Status) (s : State) : Host.Outcome State Fault Refusal :=
  match memRead Config.resultCell s with
  | .ok v t => .next { t with status := st, result := v }
  | .raise f t => .next (takeFault f t)
  | .stop f => .fault f

/-- The outcome of a step whose pseudocode ends in PROCEED where it raises nothing (R77, R80). -/
def Res.toOutcome (x : Res Unit) : Host.Outcome State Fault Refusal :=
  match x with
  | .ok _ s => .next (proceed s)
  | .raise f s => .next (takeFault f s)
  | .stop f => .fault f

end Sys2Proof.Machine
end

