-- ==== Sys2Proof/Machine/Operands.lean ====
section
/-!
DEFINITION. The four checked accessors, "the only ways the datapath touches `MEM`" (20_memory.md section 2): ReadCell (R34,
R35), ReadOperand (R36), CheckDest (R37), WriteCell (R38).
-/

namespace Sys2Proof.Machine

/-- `ReadCell(p)` (R34), for a cell whose content is given: the strict `>` test, then the past-end index, then the read.
`content` is `none` for a cell that nothing has written (R111). -/
def readCellWith (content : Option Word) (p : Nat) (s : State) : Res Word :=
  if s.len.toNat < p then .raise (.programPosition p) s
  else if p = s.len.toNat then .raise (.pastEnd p) s
  else
    match content with
    | some v => .ok v (s.log { addr := p, we := false, data := v })
    | none => .stop (.unwrittenCell p)

/-- `ReadCell(p)` (R34). -/
def readCell (p : Nat) (s : State) : Res Word := readCellWith (s.mem.read p) p s

/-- An operand address is out of range: negative, or at or above LEN (R36, C1), as a signed comparison (R39). -/
def State.operandBad (s : State) (addr : Word) : Bool :=
  decide (addr.toInt < 0) || decide ((s.len.toNat : Int) ≤ addr.toInt)

/-- A destination address is out of range: negative, or above LEN (R37, C2). -/
def State.destBad (s : State) (d : Word) : Bool :=
  decide (d.toInt < 0) || decide ((s.len.toNat : Int) < d.toInt)

/-- The two source operands of format Q (R54). -/
inductive Operand where
  | first
  | second
  deriving DecidableEq, Repr

/-- The operand's field is at `p + 1` or `p + 2` (R54). -/
def Operand.offset : Operand → Nat
  | .first => 1
  | .second => 2

/-- Latch the operand's field (R26): `a` or `b`. -/
def Operand.latchField (o : Operand) (v : Word) (l : Latches) : Latches :=
  match o with
  | .first => { l with a := v }
  | .second => { l with b := v }

/-- Latch the operand's value (R26): `va` or `vb`. -/
def Operand.latchValue (o : Operand) (v : Word) (l : Latches) : Latches :=
  match o with
  | .first => { l with va := v }
  | .second => { l with vb := v }

/-- `ReadOperand(p)` (R36), positional addressing: fetch the field through ReadCell, check the address it holds, read
the cell it names. -/
def readOperand (o : Operand) (field : Option Word) (s : State) : Res Word :=
  (readCellWith field (s.pc.toNat + o.offset) s).andThen fun addr s1 =>
    let s2 := s1.latched (o.latchField addr)
    if s2.operandBad addr then .raise (.argumentPosition (s2.pc.toNat + o.offset) addr) s2
    else
      (memRead addr.toNat s2).andThen fun v s3 => .ok v (s3.latched (o.latchValue v))

/-- `CheckDest(d)` (R37). -/
def checkDest (d : Word) (s : State) : Res Unit :=
  if s.destBad d then .raise (.modifyPosition d) s else .ok () s

/-- `WriteCell(a, v)` (R38), for an address that has passed CheckDest: a write at LEN faults and is not performed (R35). -/
def writeCell (d v : Word) (s : State) : Res Unit :=
  if d.toNat = s.len.toNat then .raise (.pastEnd d.toNat) s
  else .ok () (memWrite d.toNat v s)

end Sys2Proof.Machine
end

