-- ==== Sys2Proof/Machine/Alu.lean ====
section
/-!
DEFINITION. The ALU (R71 to R73, R75): total functions of two cells to one, no carry, no status, no flag (R15).
-/

namespace Sys2Proof.Machine

/-- `f(va, vb) = wrap64(va + vb)` (R69, R71). -/
def aluAdd (va vb : Word) : Word := Config.narrow (va.toInt + vb.toInt)

/-- `f(va, vb) = wrap64(va * vb)` (R70, R72). -/
def aluMul (va vb : Word) : Word := Config.narrow (va.toInt * vb.toInt)

end Sys2Proof.Machine
end

