-- ==== Sys2Proof/Machine/Arith.lean ====
section
/-!
DEFINITION. ADD and MUL (40_arithmetic.md): the shared sequence `Arith(p, f)` and one definition for each.
-/

namespace Sys2Proof.Machine

/-- `Arith(p, f)` at `p = PC` (R67, R68), in the order of R49 and R95. `a`, `b`, `d` are the contents of the three field
cells; `none` stands for a field that nothing has written, and matters only where the sequence reaches it (log
entry 14). -/
def arith (f : Word → Word → Word) (a b d : Option Word) (s : State) : Res Unit :=
  (readCellWith d (s.pc.toNat + 3) s).andThen fun dst s1 =>
  (checkDest dst (s1.latched fun l => { l with d := dst })).andThen fun _ s2 =>
  (readOperand .first a s2).andThen fun va s3 =>
  (readOperand .second b s3).andThen fun vb s4 =>
  writeCell dst (f va vb) (s4.latched fun l => { l with r := f va vb })

/-- ADD (R69). -/
def execAdd (a b d : Word) (s : State) : Host.Outcome State Fault Refusal :=
  (arith aluAdd (some a) (some b) (some d) s).toOutcome

/-- MUL (R70). -/
def execMul (a b d : Word) (s : State) : Host.Outcome State Fault Refusal :=
  (arith aluMul (some a) (some b) (some d) s).toOutcome

end Sys2Proof.Machine
end

