-- ==== Sys2Proof/Machine/Halt.lean ====
section
/-!
DEFINITION. HLT (41_halt_and_sequencing.md R76).
-/

namespace Sys2Proof.Machine

/-- HLT (R76): outcome STOP. `STATUS <- HALTED`, `RESULT <- MEM[0]` (R80, R116); nothing else is read, nothing is written
to MEM, PC is not advanced. -/
def execHlt (s : State) : Host.Outcome State Fault Refusal := finish .halted s

end Sys2Proof.Machine
end

