-- ==== Sys2Proof/Machine/HostPort.lean ====
section
/-!
DEFINITION. The host's side (10_state.md R16 to R23, 20_memory.md R51, 70_reset_and_hazards.md R112 to R118): register
accesses, the host memory port, and the four commands. Nothing here is reached while `STATUS = RUNNING` (R10).
-/

namespace Sys2Proof.Machine

/-- The register's number (R16). -/
def HostReg.number : HostReg → Nat
  | .cmd => 0
  | .status => 1
  | .len => 2
  | .pc => 3
  | .noun => 4
  | .verb => 5
  | .result => 6
  | .errCode => 7
  | .errInfo0 => 8
  | .errInfo1 => 9

/-- What the host reads from a register (R16, R22, R23): 64 bits, the unused ones 0; CMD reads as 0. -/
def State.readReg (s : State) : HostReg → Word
  | .cmd => 0
  | .status => s.status.code.zeroExtend 64
  | .len => s.len
  | .pc => s.pc
  | .noun => s.noun
  | .verb => s.verb
  | .result => s.result
  | .errCode => s.errCode.code.zeroExtend 64
  | .errInfo0 => s.errInfo0
  | .errInfo1 => s.errInfo1

/-! ### The commands -/

/-- The start of `Run()` (R80): `STATUS <- RUNNING`, `pc <- 0`. -/
def beginRun (s : State) : State :=
  { s with status := .running, mode := .run, pc := Config.entry }

/-- START, in IDLE (R114). -/
def startCommand (s : State) : State :=
  let s1 := clearRecord s
  if s1.lenIllegal then takeFault (.invalidLength s1.len) s1
  else beginRun s1

/-- START_NV, in IDLE (R115): the length test comes before the two writes (C6), and it is `LEN <= 4` as written (C3). -/
def startNvCommand (s : State) : State :=
  let s1 := clearRecord s
  if s1.lenIllegal then takeFault (.invalidLength s1.len) s1
  else if s1.len.toNat ≤ 4 then takeFault (.programPosition s1.len.toNat) s1
  else beginRun (memWrite Config.verbCell s1.verb (memWrite Config.nounCell s1.noun s1))

/-- STEP, in IDLE (R116), up to the execution of `Step(PC)`, which is the next transition. -/
def stepCommand (s : State) : State :=
  let s1 := clearRecord s
  if s1.lenIllegal then takeFault (.invalidLength s1.len) s1
  else { s1 with status := .running, mode := .single }

/-- A write of `v` to CMD (R22, R113): bits [2:0] name the command (R16; log entry 16). A command that is not accepted, or
no command, changes nothing. -/
def writeCmd (v : Word) (s : State) : State :=
  match (v.extractLsb' 0 3).toNat with
  | 1 => if s.status = .idle then startCommand s else s
  | 2 => if s.status = .idle then startNvCommand s else s
  | 3 => if s.status = .idle then stepCommand s else s
  | 4 => if s.status = .running then s else clearCommand s
  | _ => s

/-- A host write to a register (R16, R22, R23): LEN, PC, NOUN, VERB take it while IDLE, the read-only registers never. -/
def writeReg (reg : HostReg) (v : Word) (s : State) : State :=
  match reg with
  | .cmd => writeCmd v s
  | .len => if s.status = .idle then { s with len := v } else s
  | .pc => if s.status = .idle then { s with pc := v } else s
  | .noun => if s.status = .idle then { s with noun := v } else s
  | .verb => if s.status = .idle then { s with verb := v } else s
  | .status => s
  | .result => s
  | .errCode => s
  | .errInfo0 => s
  | .errInfo1 => s

/-- The content of cell `i` as the host memory port finds it: what was written last, or the unspecified content that the
latest reset left (R111; log entry 4). A read changes neither (R42). -/
def State.hostCell (s : State) (i : Nat) : Word := (s.mem.read i).getD (Config.unspecifiedCell s.resetCount i)

/-- A host read of a cell (R23, R51), without side effect (R42). An index at or above MEM_DEPTH, where there is no cell,
gives an unspecified value: the next free value (log entry 4). -/
def hostReadCell (i : Nat) (s : State) : State :=
  if i < s.memDepth then { s with hostData := s.hostCell i }
  else { s with hostData := Config.freeWord s.freeCount, freeCount := s.freeCount + 1 }

/-- A host write of a cell (R23, R51): taken while IDLE and below MEM_DEPTH, else ignored. -/
def hostWriteCell (i : Nat) (v : Word) (s : State) : State :=
  if s.status = .idle ∧ i < s.memDepth then { s with mem := s.mem.write i v } else s

/-- Serve one host action. -/
def serve (act : HostAction) (s : State) : State :=
  match act with
  | .readReg reg => { s with hostData := s.readReg reg }
  | .writeReg reg v => writeReg reg v s
  | .readCell i => hostReadCell i s
  | .writeCell i v => hostWriteCell i v s

/-- The block while `STATUS != RUNNING`: the host's next action is served; where there is none, nothing happens. -/
def hostTurn (s : State) : State :=
  match s.host with
  | [] => s
  | act :: rest => serve act { s with host := rest }

/-! ### The load sequence (R112) -/

/-- Step 1 of R112: write the cells, cell `i` first. -/
def loadCells (i : Nat) : List Word → List HostAction
  | [] => []
  | v :: vs => .writeCell i v :: loadCells (i + 1) vs

/-- Steps 1, 2 and 5 of R112: load the image, set LEN, give a command by its number (R22). -/
def loadScript (cells : List Word) (command : Word) : List HostAction :=
  loadCells 0 cells ++ [.writeReg .len (BitVec.ofNat 64 cells.length), .writeReg .cmd command]

end Sys2Proof.Machine
end

