-- ==== Sys2Proof/Machine/Sequencer.lean ====
section
/-!
DEFINITION. Fetch and dispatch (`Step(p)`, R77), the run loop (`Run()`, R80), and one transition of the whole machine.
-/

namespace Sys2Proof.Machine

/-- The cells of the program from `p` on, at most `n`, up to the first that is not there to read. -/
def State.cellsFrom (s : State) : Nat → Nat → List Word
  | 0, _ => []
  | n + 1, p =>
    match s.programCell p with
    | some v => v :: s.cellsFrom n (p + 1)
    | none => []

/-- The slot at PC, what there is of it (R53). -/
def State.slotCells (s : State) : List Word := s.cellsFrom Config.stride s.pc.toNat

/-- The opcode has been fetched (transaction 1 of R49) and latched (R78). -/
def State.fetched (op : Word) (s : State) : State :=
  (s.log { addr := s.pc.toNat, we := false, data := op }).latched fun l => { l with op := op }

/-- `Arith` at an ADD or MUL whose slot is not there whole: a field at or above LEN, or one that nothing has written (log
entry 14). The order of R95 decides what is met first. -/
def arithInPlace (f : Word → Word → Word) (s : State) : Host.Outcome State Fault Refusal :=
  let p := s.pc.toNat
  (arith f (s.programCell (p + 1)) (s.programCell (p + 2)) (s.programCell (p + 3)) s).toOutcome

/-- Decode and dispatch, the opcode `op` being latched (R77). -/
def dispatchSlot (s : State) : Host.Outcome State Fault Refusal :=
  match decode s.slotCells with
  | .instr i => exec i s
  | .error (.unknownOpcode v) => .next (takeFault (.unknownOpcode v s.pc.toNat) s)
  | .error .addFieldsMissing => arithInPlace aluAdd s
  | .error .mulFieldsMissing => arithInPlace aluMul s
  | .error .noOpcodeCell => .fault (.unwrittenCell s.pc.toNat)

/-- `Step(PC)` (R77) with what its caller does with the outcome (R80, R116). -/
def stepAtPc (s : State) : Host.Outcome State Fault Refusal :=
  match readCell s.pc.toNat s with
  | .ok op t => dispatchSlot (t.latched fun l => { l with op := op })
  | .raise f t => .next (takeFault f t)
  | .stop f => .fault f

/-- The block while `STATUS = RUNNING`: in a run, the test of the loop first (R79, R80); a single step does not consult
BOUND (R116). -/
def running (s : State) : Host.Outcome State Fault Refusal :=
  match s.mode with
  | .run => if s.bound ≤ s.pc.toNat then finish .ended s else stepAtPc s
  | .single => stepAtPc s

/-- The start of a transition: an empty transaction record, and the reset events one transition nearer. -/
def State.tick (s : State) : State :=
  { s with
    port := []
    resets := match s.resets with
      | [] => []
      | k :: ks => (k - 1) :: ks }

/-- A reset event is due now (R109). -/
def State.resetDue (s : State) : Bool :=
  match s.resets with
  | 0 :: _ => true
  | _ => false

/-- One transition of the machine: a reset that is due (R109), else the datapath while RUNNING, else the host (R10). -/
def transition (s : State) : Host.Outcome State Fault Refusal :=
  if s.resetDue then .next (hardReset s)
  else if s.status = .running then running s.tick
  else .next (hostTurn s.tick)

/-- The cells `c0 .. c3` as the slot at position `p`. -/
def placeSlot (p : Nat) (cells : List Word) (m : Memory) : Memory :=
  match cells with
  | [] => m
  | c :: cs => placeSlot (p + 1) cs (m.write p c)

/-- The position for a placed slot: PC, or the entry cell where PC is so near 2^64 that no slot fits (log entry 12). -/
def State.placeAt (s : State) : Nat := if s.pc.toNat + 4 < 2 ^ 64 then s.pc.toNat else Config.entry.toNat

/-- Everything it takes for the next transition to run the slot `cells`: it lies at PC, LEN covers it, the datapath is
RUNNING and no reset is due (log entry 12). -/
def placeNext (cells : List Word) (s : State) : State :=
  { s with
    mem := placeSlot s.placeAt cells s.mem
    len := if s.len.toNat < s.placeAt + 4 then BitVec.ofNat 64 (s.placeAt + 4) else s.len
    pc := BitVec.ofNat 64 s.placeAt
    status := .running
    resets := if s.resetDue then [] else s.resets }

end Sys2Proof.Machine
end

