-- ==== Sys2Proof/Machine/Step.lean ====
section
/-!
DEFINITION. One step of the machine, and the state whose next step runs a given slot.
-/

namespace Sys2Proof.Machine

/-- One step: one transition of the block, its host and its reset line (R7, R10, R109). -/
def step : State → Host.Outcome State Fault Refusal :=
  fun s => transition s

/-- `s` with the slot whose bits are `w`, numbered as spec/opcode_table.json numbers them, where the next step fetches
(log entries 11 and 12). -/
def State.withFetchWord (s : State) (nbits w : Nat) : State :=
  placeNext (tableCells nbits w) s

end Sys2Proof.Machine
end

