-- ==== Sys2Proof/Safety.lean ====
section
/-!
DEFINITION. What statements about the machine are written in: the launch premises (R119), the ends of a run (R127), the
invariant of legal states (R29), and what two runs must share to go alike (R122).
-/

namespace Sys2Proof.Machine

/-! ### Premises (R119) -/

/-- `Loaded` (R119): every cell `0 .. LEN-1` holds a value. -/
def Loaded (s : State) : Prop := ∀ i, i < s.len.toNat → (s.mem.read i).isSome

/-- `LenLegal` (R119): `1 <= LEN <= MEM_DEPTH`. -/
def LenLegal (s : State) : Prop := 1 ≤ s.len.toNat ∧ s.len.toNat ≤ s.memDepth

/-- The next transition is the execution of the instruction at PC: RUNNING, no reset due, and in a run PC below BOUND
(R79, R80, R116). -/
def AtInstruction (s : State) : Prop :=
  s.status = .running ∧ s.resetDue = false ∧ (s.mode = .run → s.pc.toNat < s.bound)

/-- The next transition serves the host action `act`, `rest` following it: not RUNNING, no reset due (R10). -/
def AtHostAction (s : State) (act : HostAction) (rest : List HostAction) : Prop :=
  s.status ≠ .running ∧ s.resetDue = false ∧ s.host = act :: rest

/-- The state in which a host action is served: a new transition, the action taken from the list. -/
def State.serving (s : State) (rest : List HostAction) : State := { s.tick with host := rest }

/-! ### The ends of a run (R127) -/

/-- HALTED and ENDED are the successful ends (R127). -/
def Succeeded (s : State) : Prop := s.status = .halted ∨ s.status = .ended

/-- A run is over when STATUS is HALTED, ENDED or FAULT (R127). -/
def RunOver (s : State) : Prop := Succeeded s ∨ s.status = .fault

/-! ### The invariant -/

/-- The error registers say what they should of the fault recorded (R18, R19, R88 to R93), and nothing where none is. -/
def RecordSound (s : State) : Prop :=
  match s.errCode with
  | .none => s.status ≠ .fault ∧ s.errInfo0 = 0 ∧ s.errInfo1 = 0
  | .programPosition =>
    s.status = .fault ∧ s.errInfo1 = 0 ∧
      (s.len.toNat < s.errInfo0.toNat ∨ s.errInfo0 = s.len ∧ s.len.toNat ≤ 4)
  | .modifyPosition => s.status = .fault ∧ s.errInfo1 = 0 ∧ s.destBad s.errInfo0 = true
  | .argumentPosition =>
    s.status = .fault ∧ (s.errInfo0 = s.pc + 1 ∨ s.errInfo0 = s.pc + 2) ∧ s.operandBad s.errInfo1 = true
  | .unknownOpcode =>
    s.status = .fault ∧ s.errInfo1 = s.pc ∧ s.errInfo0 ≠ 1 ∧ s.errInfo0 ≠ 2 ∧ s.errInfo0 ≠ 99
  | .pastEnd => s.status = .fault ∧ s.errInfo0 = s.len ∧ s.errInfo1 = 0
  | .invalidLength => s.status = .fault ∧ s.errInfo0 = s.len ∧ s.errInfo1 = 0 ∧ ¬ LenLegal s

/-- What holds in every state the machine reaches, whatever the host does and whenever resets come (R12, R14, R17 to R20,
R29, R83). -/
structure Inv (s : State) : Prop where
  /-- MEM is in its canonical form. -/
  memWf : s.mem.Wf
  /-- MEM has no cell at or above MEM_DEPTH (R11). -/
  memBelow : ∀ x ∈ s.mem, x.1 < s.memDepth
  /-- MEM_DEPTH is legal (R5). -/
  depthLegal : Config.minDepth ≤ s.memDepth ∧ s.memDepth ≤ Config.maxDepth
  /-- LEN is legal from a launch to the `CLEAR` after its successful end (R12). -/
  lenLegal : s.status = .running ∨ Succeeded s → LenLegal s
  /-- In a run PC is a multiple of 4 and at most BOUND (R29 item 2). -/
  pcInRun : s.status = .running → s.mode = .run → s.pc.toNat % 4 = 0 ∧ s.pc.toNat ≤ s.bound
  /-- The error registers are right (R18, R19). -/
  record : RecordSound s
  /-- RESULT is cell 0 after a successful end (R20). -/
  resultValid : Succeeded s → s.mem.read 0 = some s.result
  /-- HALTED: an opcode 99 was decoded at PC (R17, R83). -/
  haltedAtHlt : s.status = .halted → s.mem.read s.pc.toNat = some 99
  /-- ENDED: a run came to BOUND (R17, R83). -/
  endedAtBound : s.status = .ended → s.mode = .run ∧ s.pc.toNat = s.bound

/-! ### What a running datapath depends on -/

/-- The two states agree on what the datapath may read while RUNNING, and on what it writes that outlives a step: cells
below LEN, and every register but NOUN, VERB and the latches (R11, R21, R26, R122). -/
structure Agree (s t : State) : Prop where
  cells : ∀ i, i < s.len.toNat → s.mem.read i = t.mem.read i
  len : s.len = t.len
  pc : s.pc = t.pc
  status : s.status = t.status
  mode : s.mode = t.mode
  result : s.result = t.result
  errCode : s.errCode = t.errCode
  errInfo0 : s.errInfo0 = t.errInfo0
  errInfo1 : s.errInfo1 = t.errInfo1
  resets : s.resets = t.resets

/-- Two outcomes are alike: next states that agree and were reached by the same transactions, or the same stop. -/
def OutcomesAlike (x y : Host.Outcome State Fault Refusal) : Prop :=
  match x, y with
  | .next s, .next t => Agree s t ∧ s.port = t.port
  | .fault f, .fault g => f = g
  | .refused q, .refused r => q = r
  | _, _ => False

/-! ### What is counted in a transition -/

/-- How many reads of MEM the latest transition made (R129). -/
def State.reads (s : State) : Nat := s.port.countP (fun t => !t.we)

/-- How many writes of MEM the latest transition made (R129). -/
def State.writes (s : State) : Nat := s.port.countP (fun t => t.we)

end Sys2Proof.Machine
end

