-- ==== Sys2Proof/Certificates/Slice0/Obligations.lean ====
section
/-!
DEFINITION. The statements for the provers, from the spec's numbered rules. `s.tick` is `s` at the start of a transition
(empty transaction record, reset events one transition nearer), `s.fetched op` is `s` after transaction 1 of R49, and
`s.serving rest` is `s.tick` with the served action taken from the host's list. "Stops" is the model's `fault` outcome: a
datapath read of a cell nothing has written (R111).
"D<n>" is a decision of the spec (92_eei_decisions.md), "log entry <n>" one of the model (notes/assumptions/<n>.md).
-/

open Sys2Proof Sys2Proof.Machine

/-! ### Fetch, decode, dispatch -/

/-- R77, R80, R116 (`tick`, `fetched` and the host's list are the model's: log entries 5 to 8 and 10): where the slot
at PC decodes to `i`, the step is `exec i` after the opcode's fetch. The transition around it empties the transaction
record and brings the reset events nearer (`tick`). -/
def Obligations.StepRunsDecodedInstruction : Prop :=
  ∀ (s : State) (i : Instr), AtInstruction s → decode s.slotCells = .instr i →
    ∃ op, s.mem.read s.pc.toNat = some op ∧ step s = exec i (s.tick.fetched op)

/-- R88 (a), R92 (a), R91, R95 items 1 and 2: what the fetch and the decoder do where no instruction is decoded. The
stop at a cell that nothing has written is the model's (R111, log entry 3). -/
def Obligations.FetchFaultsInOrder : Prop :=
  ∀ s : State, AtInstruction s →
    (s.len.toNat < s.pc.toNat → step s = .next (takeFault (.programPosition s.pc.toNat) s.tick)) ∧
    (s.pc.toNat = s.len.toNat → step s = .next (takeFault (.pastEnd s.pc.toNat) s.tick)) ∧
    (s.pc.toNat < s.len.toNat → s.mem.read s.pc.toNat = none → step s = .fault (.unwrittenCell s.pc.toNat)) ∧
    (s.pc.toNat < s.len.toNat → ∀ op, s.mem.read s.pc.toNat = some op → op ≠ 1 → op ≠ 2 → op ≠ 99 →
      step s = .next (takeFault (.unknownOpcode op s.pc.toNat) (s.tick.fetched op)))

/-- R34, R35, R95 items 3: an ADD or MUL whose destination field is at or past LEN faults there, whatever the other
cells hold; the opcode alone has been fetched. -/
def Obligations.MissingDestinationFieldFaults : Prop :=
  ∀ (s : State) (op : Word), AtInstruction s → s.pc.toNat < s.len.toNat → s.mem.read s.pc.toNat = some op →
    (op = 1 ∨ op = 2) →
    (s.len.toNat < s.pc.toNat + 3 →
      step s = .next (takeFault (.programPosition (s.pc.toNat + 3)) (s.tick.fetched op))) ∧
    (s.pc.toNat + 3 = s.len.toNat →
      step s = .next (takeFault (.pastEnd (s.pc.toNat + 3)) (s.tick.fetched op)))

/-- R54, R57, R58: words written out from the spec's encoding, in the numbering of spec/opcode_table.json. -/
def Obligations.EncodedWordsDecode : Prop :=
  decodeTableWord 256 0x00000000000000010000000000000009000000000000000A0000000000000003 = some (.add 9 10 3) ∧
  decodeTableWord 256 0x00000000000000020000000000000003000000000000000BFFFFFFFFFFFFFFFF = some (.mul 3 11 (-1)) ∧
  decodeTableWord 256 0x0000000000000063000000000000001E00000000000000280000000000000032 = some .hlt ∧
  decodeTableWord 256 0x0000000100000001000000000000000000000000000000000000000000000000 = none

/-- R57, R58, R55: the whole opcode cell selects one of four rows; of a HLT nothing but the opcode is examined, of an
illegal opcode neither. -/
def Obligations.WholeOpcodeCellSelects : Prop :=
  ∀ (op : Word) (fields : List Word),
    (op = 0x0000000000000001 → ∀ a b d, decode (op :: a :: b :: d :: fields) = .instr (.add a b d)) ∧
    (op = 0x0000000000000002 → ∀ a b d, decode (op :: a :: b :: d :: fields) = .instr (.mul a b d)) ∧
    (op = 0x0000000000000063 → decode (op :: fields) = .instr .hlt) ∧
    (op ≠ 0x0000000000000001 → op ≠ 0x0000000000000002 → op ≠ 0x0000000000000063 →
      decode (op :: fields) = .error (.unknownOpcode op))

/-- R54, R55, R57: decoding an instruction's 256-bit slot gives the instruction back, with every operand at every
value; and a slot that decodes is the encoding of what it decodes to, but for the three ignored cells of a HLT. -/
def Obligations.EncodeDecodeAgree : Prop :=
  (∀ i : Instr, decodeTableWord 256 (encodeTableWord i) = some i) ∧
  (∀ w : Nat, w < 2 ^ 256 → ∀ i : Instr, decodeTableWord 256 w = some i →
    if i = .hlt then w / 2 ^ 192 = 99 else encodeTableWord i = w)

/-- R77, R54 (the model's `withFetchWord`, log entry 12): an instruction's slot stored where the next step fetches is
what the next step runs. -/
def Obligations.StoredSlotRunsNext : Prop :=
  ∀ (s : State) (i : Instr), s.pc.toNat + 4 < 2 ^ 64 →
    step (s.withFetchWord 256 (encodeTableWord i)) =
      exec i ((s.withFetchWord 256 (encodeTableWord i)).tick.fetched
        (match i with | .add _ _ _ => 1 | .mul _ _ _ => 2 | .hlt => 99))

/-! ### The checked accessors (R34 to R38) -/

/-- R34: `ReadCell`: the strict test, the past-end index, and the read of a cell that holds a value, which changes
nothing but the transaction record. -/
def Obligations.ReadCellTestsStrictly : Prop :=
  ∀ (p : Nat) (s : State),
    (p > s.len.toNat → readCell p s = .raise (.programPosition p) s) ∧
    (p = s.len.toNat → readCell p s = .raise (.pastEnd p) s) ∧
    (p < s.len.toNat → ∀ v, s.mem.read p = some v → ∃ t, readCell p s = .ok v t ∧ { t with port := s.port } = s)

/-- R37: `CheckDest` admits `[0, LEN]` and nothing else. -/
def Obligations.CheckDestAdmitsZeroToLen : Prop :=
  ∀ (d : Word) (s : State),
    ((d.toInt < 0 ∨ d.toInt > (s.len.toNat : Int)) → checkDest d s = .raise (.modifyPosition d) s) ∧
    ((0 ≤ d.toInt ∧ d.toInt ≤ (s.len.toNat : Int)) → checkDest d s = .ok () s)

/-- R36 (the fetch through `ReadCell` is the spec's decision D13): `ReadOperand(p)`, `p` being `PC + 1` or `PC + 2`,
the cell there holding `addr`: `ReadCell(p)` first; then negative and `>= LEN` addresses fault with the field's
position and content, others give the content of the cell named. Nothing changes but latches and the transaction
record. -/
def Obligations.ReadOperandDereferences : Prop :=
  ∀ (o : Operand) (addr : Word) (s : State),
    let p := s.pc.toNat + match o with | .first => 1 | .second => 2
    (p > s.len.toNat → readOperand o (some addr) s = .raise (.programPosition p) s) ∧
    (p = s.len.toNat → readOperand o (some addr) s = .raise (.pastEnd p) s) ∧
    (p < s.len.toNat → (addr.toInt < 0 ∨ addr.toInt ≥ (s.len.toNat : Int)) →
      ∃ t, readOperand o (some addr) s = .raise (.argumentPosition p addr) t ∧
        { t with latch := s.latch, port := s.port } = s) ∧
    (p < s.len.toNat → 0 ≤ addr.toInt → addr.toInt < (s.len.toNat : Int) → ∀ v, s.mem.read addr.toNat = some v →
      ∃ t, readOperand o (some addr) s = .ok v t ∧ { t with latch := s.latch, port := s.port } = s)

/-- R38 (D11, the spec's decision): `WriteCell` at LEN faults and writes nothing, below LEN replaces the cell. -/
def Obligations.WriteCellFaultsAtLen : Prop :=
  ∀ (a v : Word) (s : State), 0 ≤ a.toInt → a.toInt ≤ (s.len.toNat : Int) →
    (a.toNat = s.len.toNat → writeCell a v s = .raise (.pastEnd s.len.toNat) s) ∧
    (a.toNat < s.len.toNat → ∃ t, writeCell a v s = .ok () t ∧ t.mem.read a.toNat = some v ∧
      (∀ i, i ≠ a.toNat → t.mem.read i = s.mem.read i) ∧ { t with mem := s.mem, port := s.port } = s)

/-! ### ADD and MUL -/

/-- R69, R49, R81: where no check fails, ADD writes the wrapped sum and the PC advances by 4, with the seven
transactions in their order (the first is the fetch's). The address stored to is `d`, all reads precede the write, so
any of the addresses may coincide (R74). STATUS goes back to IDLE after a single step (R116). The record of the
transactions is the model's (log entry 10). -/
def Obligations.AddCompletes : Prop :=
  ∀ (a b d va vb : Word) (s : State), s.pc.toNat + 3 < s.len.toNat →
    0 ≤ d.toInt → d.toInt < (s.len.toNat : Int) →
    0 ≤ a.toInt → a.toInt < (s.len.toNat : Int) → 0 ≤ b.toInt → b.toInt < (s.len.toNat : Int) →
    s.mem.read a.toNat = some va → s.mem.read b.toNat = some vb →
    exec (.add a b d) s = .next
      { s with
        mem := s.mem.write d.toNat (wrap64 (va.toInt + vb.toInt))
        pc := s.pc + 4
        status := match s.mode with | .run => s.status | .single => .idle
        latch := { s.latch with a := a, b := b, d := d, va := va, vb := vb, r := wrap64 (va.toInt + vb.toInt) }
        port := s.port ++
          [{ addr := s.pc.toNat + 3, we := false, data := d },
           { addr := s.pc.toNat + 1, we := false, data := a }, { addr := a.toNat, we := false, data := va },
           { addr := s.pc.toNat + 2, we := false, data := b }, { addr := b.toNat, we := false, data := vb },
           { addr := d.toNat, we := true, data := wrap64 (va.toInt + vb.toInt) }] }

/-- R70, R49, R81: as for ADD, with the wrapped product. -/
def Obligations.MulCompletes : Prop :=
  ∀ (a b d va vb : Word) (s : State), s.pc.toNat + 3 < s.len.toNat →
    0 ≤ d.toInt → d.toInt < (s.len.toNat : Int) →
    0 ≤ a.toInt → a.toInt < (s.len.toNat : Int) → 0 ≤ b.toInt → b.toInt < (s.len.toNat : Int) →
    s.mem.read a.toNat = some va → s.mem.read b.toNat = some vb →
    exec (.mul a b d) s = .next
      { s with
        mem := s.mem.write d.toNat (wrap64 (va.toInt * vb.toInt))
        pc := s.pc + 4
        status := match s.mode with | .run => s.status | .single => .idle
        latch := { s.latch with a := a, b := b, d := d, va := va, vb := vb, r := wrap64 (va.toInt * vb.toInt) }
        port := s.port ++
          [{ addr := s.pc.toNat + 3, we := false, data := d },
           { addr := s.pc.toNat + 1, we := false, data := a }, { addr := a.toNat, we := false, data := va },
           { addr := s.pc.toNat + 2, we := false, data := b }, { addr := b.toNat, we := false, data := vb },
           { addr := d.toNat, we := true, data := wrap64 (va.toInt * vb.toInt) }] }

/-- R95 items 3 to 7, R68, R96 (the spec's decisions D10 to D12, D15): which fault ADD and MUL raise, first of those
that apply, each with its payload, MEM, PC and RESULT kept. The stop at an operand cell that nothing has written is
the model's (R111, log entry 3). -/
def Obligations.ArithFaultsInOrder : Prop :=
  ∀ (i : Instr) (a b d : Word) (s : State), (i = .add a b d ∨ i = .mul a b d) →
    let faultsWith := fun (f : HwFault) =>
      ∃ t, exec i s = .next t ∧ t.status = .fault ∧ t.errCode = f.kind ∧ t.errInfo0 = f.info0 ∧
        t.errInfo1 = f.info1 ∧ t.mem = s.mem ∧ t.pc = s.pc ∧ t.result = s.result ∧ t.len = s.len
    if s.pc.toNat + 3 > s.len.toNat then faultsWith (.programPosition (s.pc.toNat + 3))
    else if s.pc.toNat + 3 = s.len.toNat then faultsWith (.pastEnd (s.pc.toNat + 3))
    else if d.toInt < 0 ∨ d.toInt > (s.len.toNat : Int) then faultsWith (.modifyPosition d)
    else if a.toInt < 0 ∨ a.toInt ≥ (s.len.toNat : Int) then faultsWith (.argumentPosition (s.pc.toNat + 1) a)
    else if s.mem.read a.toNat = none then exec i s = .fault (.unwrittenCell a.toNat)
    else if b.toInt < 0 ∨ b.toInt ≥ (s.len.toNat : Int) then faultsWith (.argumentPosition (s.pc.toNat + 2) b)
    else if s.mem.read b.toNat = none then exec i s = .fault (.unwrittenCell b.toNat)
    else if d.toNat = s.len.toNat then faultsWith (.pastEnd s.len.toNat)
    else ∃ t, exec i s = .next t ∧ t.errCode = s.errCode ∧ t.errInfo0 = s.errInfo0 ∧ t.errInfo1 = s.errInfo1

/-- R69, R70, R15, R21, R52: the frame of ADD and MUL. The address stored to is `d`, where the destination check and
the test for LEN pass; a step that records a fault stores nothing. Latches and the transaction record may change. -/
def Obligations.ArithFrame : Prop :=
  ∀ (i : Instr) (a b d : Word) (s t : State), (i = .add a b d ∨ i = .mul a b d) → exec i s = .next t →
    t.len = s.len ∧ t.noun = s.noun ∧ t.verb = s.verb ∧ t.result = s.result ∧ t.mode = s.mode ∧
    t.memDepth = s.memDepth ∧ t.host = s.host ∧ t.hostData = s.hostData ∧ t.resets = s.resets ∧
    t.freeCount = s.freeCount ∧ t.resetCount = s.resetCount ∧ t.latch.op = s.latch.op ∧
    (∀ x, x ≠ d.toNat → t.mem.read x = s.mem.read x) ∧
    ((s.destBad d = true ∨ d.toNat = s.len.toNat ∨ s.len.toNat ≤ s.pc.toNat + 3 ∨
        s.operandBad a = true ∨ s.operandBad b = true) →
      t.mem = s.mem ∧ t.pc = s.pc ∧ t.status = .fault) ∧
    (s.destBad d = false → d.toNat ≠ s.len.toNat → s.pc.toNat + 3 < s.len.toNat →
        s.operandBad a = false → s.operandBad b = false →
      t.pc = s.pc + 4 ∧ t.status = s.statusAfterProceed ∧ t.errCode = s.errCode ∧ t.errInfo0 = s.errInfo0 ∧
        t.errInfo1 = s.errInfo1)

/-- R71 (the wrap is the spec's decision D4): the sum as a signed integer, in its three cases, with the signs the rule
gives, and the rule's examples. -/
def Obligations.AdditionWraps : Prop :=
  (∀ va vb : Word,
    -(2 : Int) ^ 64 ≤ va.toInt + vb.toInt ∧ va.toInt + vb.toInt ≤ 2 ^ 64 - 2 ∧
    (i64Min ≤ va.toInt + vb.toInt → va.toInt + vb.toInt ≤ i64Max →
      (aluAdd va vb).toInt = va.toInt + vb.toInt) ∧
    (va.toInt + vb.toInt > i64Max → 0 < va.toInt ∧ 0 < vb.toInt ∧
      (aluAdd va vb).toInt = va.toInt + vb.toInt - 2 ^ 64 ∧ (aluAdd va vb).toInt < 0) ∧
    (va.toInt + vb.toInt < i64Min → va.toInt < 0 ∧ vb.toInt < 0 ∧
      (aluAdd va vb).toInt = va.toInt + vb.toInt + 2 ^ 64 ∧ 0 ≤ (aluAdd va vb).toInt)) ∧
  (aluAdd 9223372036854775807 1).toInt = -9223372036854775808 ∧
  (aluAdd (-9223372036854775808) (-1)).toInt = 9223372036854775807 ∧
  (aluAdd (-9223372036854775808) (-9223372036854775808)).toInt = 0 ∧
  (aluAdd 9223372036854775807 9223372036854775807).toInt = -2

/-- R72 (the wrap is the spec's decision D4): the product is the `i64` congruent to the exact product modulo 2^64,
which is the exact product where that fits; the exact product's range; and the low 64 bits are the same whether the
operands are read as signed or as unsigned. -/
def Obligations.MultiplicationWraps : Prop :=
  ∀ va vb : Word,
    -(2 : Int) ^ 126 + 2 ^ 63 ≤ va.toInt * vb.toInt ∧ va.toInt * vb.toInt ≤ 2 ^ 126 ∧
    (2 : Int) ^ 64 ∣ (aluMul va vb).toInt - va.toInt * vb.toInt ∧
    i64Min ≤ (aluMul va vb).toInt ∧ (aluMul va vb).toInt ≤ i64Max ∧
    (i64Min ≤ va.toInt * vb.toInt → va.toInt * vb.toInt ≤ i64Max →
      (aluMul va vb).toInt = va.toInt * vb.toInt) ∧
    (aluMul va vb).toNat = va.toNat * vb.toNat % 2 ^ 64

/-- R47, R74 item 5: what ADD or MUL stores is what a later fetch of that cell reads, also in the instruction's own
slot; the fetch sees it at once. -/
def Obligations.StoreSeenByNextFetch : Prop :=
  ∀ (i : Instr) (a b d : Word) (s t : State), (i = .add a b d ∨ i = .mul a b d) → exec i s = .next t →
    t.status ≠ .fault →
    readCell d.toNat t = .ok t.latch.r (t.log { addr := d.toNat, we := false, data := t.latch.r })

/-! ### HLT -/

/-- R76, R80, R83 (transaction record: log entry 10): HLT ends in HALTED with RESULT = MEM[0]; PC is not advanced, no
cell is written, nothing of the slot's other cells is read. -/
def Obligations.HltCompletes : Prop :=
  ∀ (s : State) (v : Word), s.mem.read 0 = some v →
    exec .hlt s = .next
      { s with
        status := .halted
        result := v
        port := s.port ++ [{ addr := 0, we := false, data := v }] }

/-- R76, R94: the frame of HLT: STATUS, RESULT and the transaction record may change, nothing else; it raises no
fault. -/
def Obligations.HltFrame : Prop :=
  ∀ s t : State, exec .hlt s = .next t →
    t.mem = s.mem ∧ t.pc = s.pc ∧ t.len = s.len ∧ t.noun = s.noun ∧ t.verb = s.verb ∧ t.errCode = s.errCode ∧
    t.errInfo0 = s.errInfo0 ∧ t.errInfo1 = s.errInfo1 ∧ t.latch = s.latch ∧ t.mode = s.mode ∧
    t.memDepth = s.memDepth ∧ t.host = s.host ∧ t.hostData = s.hostData ∧ t.resets = s.resets ∧
    t.freeCount = s.freeCount ∧ t.resetCount = s.resetCount ∧ t.status = .halted ∧ s.mem.read 0 = some t.result

/-! ### The run loop -/

/-- R79, R80, R82, R83: a run whose PC has come to BOUND ends in ENDED with RESULT = MEM[0], nothing decoded (`tick`
and the transaction record are the model's: log entries 5, 7 and 10). -/
def Obligations.RunEndsAtBound : Prop :=
  ∀ (s : State) (v : Word), s.status = .running → s.resetDue = false → s.mode = .run →
    s.pc.toNat ≥ s.len.toNat - s.len.toNat % 4 → s.mem.read 0 = some v →
    step s = .next
      { s.tick with
        status := .ended
        result := v
        port := [{ addr := 0, we := false, data := v }] }

/-- R29 item 3, R94: inside a run all four cells of the slot are below LEN, so no run raises
`ProgramPositionOutOfBounds`, and `PastEndAccess` only for the destination. -/
def Obligations.RunFetchesStayInside : Prop :=
  ∀ s : State, Inv s → AtInstruction s → s.mode = .run →
    s.pc.toNat + 3 < s.len.toNat ∧
    ∀ t, step s = .next t → t.errCode ≠ .programPosition ∧
      (t.errCode = .pastEnd → ∃ d, s.mem.read (s.pc.toNat + 3) = some d ∧ d.toNat = s.len.toNat)

/-- R84, counted in the model's transitions, which is its own choice (log entry 5): R84 and R128 bound the steps by
`floor(LEN / 4)`, and the model gives the end of the scan one transition more. Every run or single step ends: from a
running state with its cells loaded and no reset to come, after at most as many transitions as there are slots from
PC to BOUND, and that one; over, or IDLE after a single step that proceeds (R116). -/
def Obligations.EveryRunEnds : Prop :=
  ∀ s : State, Inv s → Loaded s → s.status = .running → s.resets = [] →
    ∃ (k : Nat) (t : State), k ≤ (s.bound - s.pc.toNat) / 4 + 1 ∧ k ≤ s.len.toNat / 4 + 1 ∧
      Sys2Proof.core.run k s = .next t ∧ (RunOver t ∨ s.mode = .single ∧ t.status = .idle) ∧ t.len = s.len

/-- R29 item 5, R12, R52: one transition of a running datapath changes at most one cell, the one the
destination field names, below LEN; LEN, NOUN, VERB, MEM_DEPTH and the host's list stay. -/
def Obligations.OneCellPerStep : Prop :=
  ∀ s t : State, s.status = .running → s.resetDue = false → step s = .next t →
    (t.mem = s.mem ∨ ∃ d v, s.mem.read (s.pc.toNat + 3) = some d ∧ d.toNat < s.len.toNat ∧
      t.mem = s.mem.write d.toNat v) ∧
    t.len = s.len ∧ t.noun = s.noun ∧ t.verb = s.verb ∧ t.memDepth = s.memDepth ∧ t.host = s.host ∧
    t.hostData = s.hostData ∧ t.freeCount = s.freeCount ∧ t.resetCount = s.resetCount

/-- R129: how many reads and writes each kind of step makes, the end of a run adding one read (counted in the model's
transaction record, log entry 10). -/
def Obligations.TransactionCounts : Prop :=
  ∀ s t : State, AtInstruction s → step s = .next t →
    (∀ a b d, decode s.slotCells = .instr (.add a b d) ∨ decode s.slotCells = .instr (.mul a b d) →
      t.reads = (if t.status ≠ .fault then 6 else if t.errCode = .modifyPosition then 2
        else if t.errCode = .argumentPosition then (if t.errInfo0 = s.pc + 1 then 3 else 5) else 6) ∧
      t.writes = (if t.status = .fault then 0 else 1)) ∧
    (decode s.slotCells = .instr .hlt → t.reads = 1 + 1 ∧ t.writes = 0) ∧
    (∀ v, decode s.slotCells = .error (.unknownOpcode v) → t.reads = 1 ∧ t.writes = 0)

/-- R81 and R83's table: PC after each end of a step or command. That it is kept after a fault is the spec's decision
D15. -/
def Obligations.PcAfterEachEnd : Prop :=
  ∀ s t : State, s.resetDue = false → step s = .next t →
    (s.status = .running →
      (t.status = .running ∨ t.status = .idle → t.pc = s.pc + 4) ∧
      (t.status = .halted → t.pc = s.pc ∧ s.mem.read s.pc.toNat = some 99) ∧
      (t.status = .ended → t.pc = s.pc ∧ (Inv s → t.pc.toNat = s.bound)) ∧
      (t.status = .fault → t.pc = s.pc)) ∧
    (s.status = .idle → t.status = .fault → t.pc = s.pc)

/-- R20: RESULT takes MEM[0] when STATUS becomes HALTED or ENDED, 0 at a reset or CLEAR, and keeps its value
otherwise. CLEAR is a CMD write with 4 in bits [2:0], which the model reads alone (R16, R22; log entry 16). -/
def Obligations.ResultWrittenAtSuccessAlone : Prop :=
  ∀ s t : State, step s = .next t →
    let succeeds := s.status = .running ∧ s.resetDue = false ∧ Succeeded t
    let cleared := s.resetDue = true ∨
      s.status ≠ .running ∧ ∃ v rest, s.host = .writeReg .cmd v :: rest ∧ v.toNat % 8 = 4
    (succeeds → s.mem.read 0 = some t.result) ∧ (cleared → t.result = 0) ∧
      (¬ succeeds → ¬ cleared → t.result = s.result)

/-- R17, R22, R97, R110, R113: how STATUS may change, no reset being due. -/
def Obligations.StatusMovesAsTabled : Prop :=
  ∀ s t : State, s.resetDue = false → step s = .next t →
    match s.status with
    | .idle => t.status = .idle ∨ t.status = .running ∨ t.status = .fault
    | .running => (s.mode = .run → t.status ≠ .idle) ∧ (s.mode = .single → t.status ≠ .running ∧ t.status ≠ .ended)
    | .halted => t.status = .halted ∨ t.status = .idle
    | .ended => t.status = .ended ∨ t.status = .idle
    | .fault => t.status = .fault ∨ t.status = .idle

/-- R12, R21, R23, R86: LEN, NOUN and VERB change by a reset or by a host write to that register in IDLE, and by
nothing else: no instruction and no command writes them. -/
def Obligations.HostRegistersWrittenByHostAlone : Prop :=
  ∀ s t : State, step s = .next t → s.resetDue = false →
    (t.len ≠ s.len → s.status = .idle ∧ ∃ rest, s.host = .writeReg .len t.len :: rest) ∧
    (t.noun ≠ s.noun → s.status = .idle ∧ ∃ rest, s.host = .writeReg .noun t.noun :: rest) ∧
    (t.verb ≠ s.verb → s.status = .idle ∧ ∃ rest, s.host = .writeReg .verb t.verb :: rest)

/-- R96, R68 (PC kept is the spec's decision D15): fault entry: where a running datapath's step comes to FAULT, a
fault is recorded, and what may have changed is STATUS, the three error registers, the latches, the transaction
record (log entry 10) and the reset delays, each one transition nearer (log entry 7): MEM, LEN, PC, NOUN, VERB,
RESULT, the command in progress, MEM_DEPTH, the host's list and data and the counts of free values and of resets are
as they were. -/
def Obligations.FaultsArePrecise : Prop :=
  ∀ s t : State, s.status = .running → s.resetDue = false → step s = .next t → t.status = .fault →
    t.errCode ≠ .none ∧
    t.mem = s.mem ∧ t.len = s.len ∧ t.pc = s.pc ∧ t.noun = s.noun ∧ t.verb = s.verb ∧ t.result = s.result ∧
    t.mode = s.mode ∧ t.memDepth = s.memDepth ∧ t.host = s.host ∧ t.hostData = s.hostData ∧
    t.freeCount = s.freeCount ∧ t.resetCount = s.resetCount ∧ t.resets = s.tick.resets

/-- R97, R110: nothing executes in FAULT: the record, MEM, PC and RESULT stay until the host's CLEAR (a
CMD write with 4 in bits [2:0], log entry 16), or a reset. -/
def Obligations.FaultIsTerminal : Prop :=
  ∀ s t : State, s.status = .fault → s.resetDue = false → step s = .next t →
    (t.status = .fault ∧ t.errCode = s.errCode ∧ t.errInfo0 = s.errInfo0 ∧ t.errInfo1 = s.errInfo1 ∧
      t.pc = s.pc ∧ t.result = s.result ∧ t.mem = s.mem ∧ t.len = s.len) ∨
    (∃ v rest, s.host = .writeReg .cmd v :: rest ∧ v.toNat % 8 = 4 ∧ t.status = .idle)

/-! ### The invariant -/

/-- R5, R11, R12, R14, R17 to R20, R29, R83: every transition keeps the invariant of legal states. -/
def Obligations.StepKeepsInvariant : Prop :=
  ∀ s t : State, Inv s → step s = .next t → Inv t

/-- The invariant holds after reset (the depth there is the model's choice, log entry 1; the invariant asks only that
it is legal). -/
def Obligations.InvariantAtReset : Prop := Inv State.reset

/-- R119, R111: with every cell below LEN loaded, a running datapath never comes to the model's stop (log entry 3),
and its cells stay loaded. -/
def Obligations.LoadedRunNeverStops : Prop :=
  ∀ s : State, Inv s → Loaded s → s.status = .running → s.resetDue = false →
    ∃ t, step s = .next t ∧ Loaded t

/-! ### What a run depends on -/

/-- R11, R21, R26, R27, R122: what a running datapath does depends on the cells below LEN, LEN, PC, STATUS and the
command in progress, and on nothing else: not on cells above LEN, not on what the latches hold from the step before,
not on NOUN, VERB, the host or MEM_DEPTH. -/
def Obligations.RunDependsOnProgramAlone : Prop :=
  ∀ s t : State, Agree s t → 1 ≤ s.len.toNat → s.status = .running → s.resetDue = false →
    OutcomesAlike (step s) (step t)

/-! ### Reset and the host -/

/-- R28, R109: the registers after reset. That no cell holds a value is how the model says "unspecified" (log entry
3). -/
def Obligations.RegistersAtReset : Prop :=
  State.reset.status = .idle ∧ State.reset.pc = 0 ∧ State.reset.len = 0 ∧ State.reset.noun = 0 ∧
  State.reset.verb = 0 ∧ State.reset.result = 0 ∧ State.reset.errCode = .none ∧ State.reset.errInfo0 = 0 ∧
  State.reset.errInfo1 = 0 ∧ (∀ i, State.reset.mem.read i = none) ∧
  ∀ r : HostReg, State.reset.readReg r = 0

/-- R109, R110, R111: a reset comes in any state, a run in progress is abandoned with no result and no fault, and no
cell holds a value after it (log entry 3). MEM_DEPTH, the host's list and the later resets stay (log
entries 1, 6, 7); the unspecified contents are new ones (log entry 4). -/
def Obligations.ResetInAnyState : Prop :=
  ∀ (s : State) (later : List Nat), s.resets = 0 :: later →
    ∃ t, step s = .next t ∧ t.status = .idle ∧ t.pc = 0 ∧ t.len = 0 ∧ t.noun = 0 ∧ t.verb = 0 ∧ t.result = 0 ∧
      t.errCode = .none ∧ t.errInfo0 = 0 ∧ t.errInfo1 = 0 ∧ (∀ i, t.mem.read i = none) ∧
      t.memDepth = s.memDepth ∧ t.host = s.host ∧ t.resets = later ∧ t.resetCount = s.resetCount + 1

/-- R10, R105: with nothing for the host to do, a block that is not running stays as it is (the model's transition for
that: log entry 6). -/
def Obligations.IdleWithoutHostStays : Prop :=
  ∀ s : State, s.status ≠ .running → s.resetDue = false → s.host = [] → step s = .next s.tick

/-- R114: START. Bits [2:0] of the value written name the command (R16, R22; log entry 16). -/
def Obligations.StartLaunches : Prop :=
  ∀ (s : State) (v : Word) (rest : List HostAction), AtHostAction s (.writeReg .cmd v) rest → s.status = .idle →
    v.toNat % 8 = 1 →
    step s = .next (
      if s.len = 0 ∨ s.len.toNat > s.memDepth then
        { s.serving rest with status := .fault, errCode := .invalidLength, errInfo0 := s.len, errInfo1 := 0 }
      else
        { s.serving rest with
          status := .running, mode := .run, pc := 0, errCode := .none, errInfo0 := 0, errInfo1 := 0 })

/-- R115, R129 (the test before the writes is the spec's decision D17; CMD: log entry 16): START_NV: the two length
tests, then the two writes, then the run. -/
def Obligations.StartNvLaunches : Prop :=
  ∀ (s : State) (v : Word) (rest : List HostAction), AtHostAction s (.writeReg .cmd v) rest → s.status = .idle →
    v.toNat % 8 = 2 →
    step s = .next (
      if s.len = 0 ∨ s.len.toNat > s.memDepth then
        { s.serving rest with status := .fault, errCode := .invalidLength, errInfo0 := s.len, errInfo1 := 0 }
      else if s.len.toNat ≤ 4 then
        { s.serving rest with status := .fault, errCode := .programPosition, errInfo0 := s.len, errInfo1 := 0 }
      else
        { s.serving rest with
          mem := (s.mem.write 1 s.noun).write 2 s.verb
          port := [{ addr := 1, we := true, data := s.noun }, { addr := 2, we := true, data := s.verb }]
          status := .running, mode := .run, pc := 0, errCode := .none, errInfo0 := 0, errInfo1 := 0 })

/-- R116: STEP, up to the execution of `Step(PC)`, which the next step does (`StepRunsDecodedInstruction`,
`FetchFaultsInOrder`): PC is the host's, BOUND is not consulted (log entries 8 and 16). -/
def Obligations.StepCommandLaunches : Prop :=
  ∀ (s : State) (v : Word) (rest : List HostAction), AtHostAction s (.writeReg .cmd v) rest → s.status = .idle →
    v.toNat % 8 = 3 →
    step s = .next (
      if s.len = 0 ∨ s.len.toNat > s.memDepth then
        { s.serving rest with status := .fault, errCode := .invalidLength, errInfo0 := s.len, errInfo1 := 0 }
      else
        { s.serving rest with status := .running, mode := .single, errCode := .none, errInfo0 := 0, errInfo1 := 0 })

/-- R117 (CMD: log entry 16): CLEAR in IDLE, HALTED, ENDED and FAULT; MEM, LEN, NOUN, VERB are left as they are. -/
def Obligations.ClearReturnsToIdle : Prop :=
  ∀ (s : State) (v : Word) (rest : List HostAction), AtHostAction s (.writeReg .cmd v) rest → v.toNat % 8 = 4 →
    step s = .next
      { s.serving rest with
        status := .idle, pc := 0, result := 0, errCode := .none, errInfo0 := 0, errInfo1 := 0 }

/-- R22, R113 (CMD: log entry 16): a launch command outside IDLE, and a value that names no command, change
nothing. -/
def Obligations.UnacceptedCommandsAreIgnored : Prop :=
  ∀ (s : State) (v : Word) (rest : List HostAction), AtHostAction s (.writeReg .cmd v) rest →
    (v.toNat % 8 = 0 ∨ 5 ≤ v.toNat % 8 ∨ s.status ≠ .idle ∧ 1 ≤ v.toNat % 8 ∧ v.toNat % 8 ≤ 3) →
    step s = .next (s.serving rest)

/-- R16 to R23: what the host reads from each register: CMD reads 0, the codes of R17 and R18 with the unused
bits 0. -/
def Obligations.HostReadsRegisters : Prop :=
  ∀ (s : State) (reg : HostReg) (rest : List HostAction), AtHostAction s (.readReg reg) rest →
    step s = .next
      { s.serving rest with
        hostData := match reg with
          | .cmd => 0
          | .status => match s.status with
            | .idle => 0 | .running => 1 | .halted => 2 | .ended => 3 | .fault => 4
          | .len => s.len
          | .pc => s.pc
          | .noun => s.noun
          | .verb => s.verb
          | .result => s.result
          | .errCode => match s.errCode with
            | .none => 0 | .programPosition => 1 | .modifyPosition => 2 | .argumentPosition => 3
            | .unknownOpcode => 4 | .pastEnd => 5 | .invalidLength => 6
          | .errInfo0 => s.errInfo0
          | .errInfo1 => s.errInfo1 }

/-- R23: host writes to the registers: LEN, PC, NOUN, VERB take them while IDLE, everything else ignores them. -/
def Obligations.HostWritesRegisters : Prop :=
  ∀ (s : State) (reg : HostReg) (v : Word) (rest : List HostAction), AtHostAction s (.writeReg reg v) rest →
    reg ≠ .cmd →
    step s = .next (
      if s.status = .idle then
        match reg with
        | .len => { s.serving rest with len := v }
        | .pc => { s.serving rest with pc := v }
        | .noun => { s.serving rest with noun := v }
        | .verb => { s.serving rest with verb := v }
        | _ => s.serving rest
      else s.serving rest)

/-- R23, R51: host writes of cells: taken while IDLE below MEM_DEPTH, else ignored. -/
def Obligations.HostWritesCells : Prop :=
  ∀ (s : State) (i : Nat) (v : Word) (rest : List HostAction), AtHostAction s (.writeCell i v) rest →
    ∃ t, step s = .next t ∧
      (s.status = .idle → i < s.memDepth → t.mem.read i = some v ∧ ∀ j, j ≠ i → t.mem.read j = s.mem.read j) ∧
      ((s.status ≠ .idle ∨ i ≥ s.memDepth) → t = s.serving rest) ∧
      { t with mem := s.mem } = s.serving rest

/-- R23, R51, R111 (free values: log entry 4): host reads of cells, in every state but RUNNING: a cell that was
written gives what it holds, one that nothing has written a value of which nothing is known; neither read changes
anything else. At or above MEM_DEPTH, where there is no cell, the value is a new free value. -/
def Obligations.HostReadsCells : Prop :=
  ∀ (s : State) (i : Nat) (rest : List HostAction), AtHostAction s (.readCell i) rest →
    (i < s.memDepth → ∀ v, s.mem.read i = some v → step s = .next { s.serving rest with hostData := v }) ∧
    (i < s.memDepth → s.mem.read i = none → ∃ v, step s = .next { s.serving rest with hostData := v }) ∧
    (i ≥ s.memDepth → ∃ v, step s = .next { s.serving rest with hostData := v, freeCount := s.freeCount + 1 })

/-- R42: reads are idempotent: the host reads one cell below MEM_DEPTH twice, written or not (log entry 4), no reset
coming in between: the second read returns what the first returned, and leaves everything else as the first left it.
-/
def Obligations.HostReadsAreIdempotent : Prop :=
  ∀ (s : State) (i : Nat) (rest : List HostAction), AtHostAction s (.readCell i) (.readCell i :: rest) →
    s.tick.resetDue = false → i < s.memDepth →
    ∃ t u, step s = .next t ∧ step t = .next u ∧ u.hostData = t.hostData ∧ u = t.serving rest

/-- R42, R32, R11: the content of a cell, as the host reads it, changes by a write of that cell and by nothing else,
no reset being due: the host's write in IDLE below MEM_DEPTH, START_NV's writes of cells 1 and 2 (CMD: log entry 16),
or a running instruction's write below LEN of the cell its destination field names. An unwritten cell's content is a
free value (log entry 4). -/
def Obligations.CellsChangeByWritesAlone : Prop :=
  ∀ (s t : State) (i : Nat), s.resetDue = false → step s = .next t → t.hostCell i ≠ s.hostCell i →
    (s.status = .idle ∧ i < s.memDepth ∧ ∃ v rest, s.host = .writeCell i v :: rest ∧ t.hostCell i = v) ∨
    (s.status = .idle ∧ (i = 1 ∧ t.hostCell i = s.noun ∨ i = 2 ∧ t.hostCell i = s.verb) ∧
      ∃ v rest, s.host = .writeReg .cmd v :: rest ∧ v.toNat % 8 = 2) ∨
    (s.status = .running ∧ ∃ d, s.mem.read (s.pc.toNat + 3) = some d ∧ d.toNat = i ∧ i < s.len.toNat)

/-- R112 (host's list: log entry 6): the load sequence loads: after one step for each cell and one for LEN, the image
lies in cells `0 .. L-1`, LEN is L, and the command is next. -/
def Obligations.LoadScriptLoads : Prop :=
  ∀ (s : State) (cells : List Word) (command : Word), s.status = .idle → s.resets = [] →
    s.host = loadScript cells command → imageWf s.memDepth cells = true →
    ∃ t : State, Sys2Proof.core.run (cells.length + 1) s = .next t ∧ t.status = .idle ∧
      t.len.toNat = cells.length ∧ (∀ i, i < cells.length → t.mem.read i = cells[i]?) ∧ Loaded t ∧ LenLegal t ∧
      t.host = [.writeReg .cmd command]
end

