-- ==== Sys2Proof/Laws/Decode.lean ====
section
/-!
SUPPORT. The decoder's comparators, and the opcode table's numbering of a slot's bits.
-/

namespace Sys2Proof

theorem decodeOpcode_add : decodeOpcode 1 = .add := rfl
theorem decodeOpcode_mul : decodeOpcode 2 = .multiply := rfl
theorem decodeOpcode_hlt : decodeOpcode 99 = .halt := rfl

theorem decodeOpcode_unknown {op : Word} (h1 : op ≠ 1) (h2 : op ≠ 2) (h3 : op ≠ 99) :
    decodeOpcode op = .unknown op := by
  show (if op = 1 then Decoded.add else if op = 2 then .multiply else if op = 99 then .halt else .unknown op) = _
  rw [if_neg h1, if_neg h2, if_neg h3]

theorem decodeTableWord_eq (nbits w : Nat) : decodeTableWord nbits w = (decode (tableCells nbits w)).instr? := rfl

/-- What four cells decode to, if anything: a HLT by the first alone, or the instruction whose slot they are. -/
theorem instr_of_cells {c0 c1 c2 c3 : Word} {i : Instr} (h : (decode [c0, c1, c2, c3]).instr? = some i) :
    (c0 = 99 ∧ i = .hlt) ∨ (i ≠ .hlt ∧ encode i = [c0, c1, c2, c3]) := by
  by_cases h1 : c0 = 1
  · subst h1
    simp only [decode, decodeOpcode_add, DecodeResult.instr?, Option.some.injEq] at h
    subst h
    exact .inr ⟨by simp, rfl⟩
  by_cases h2 : c0 = 2
  · subst h2
    simp only [decode, decodeOpcode_mul, DecodeResult.instr?, Option.some.injEq] at h
    subst h
    exact .inr ⟨by simp, rfl⟩
  by_cases h3 : c0 = 99
  · subst h3
    simp only [decode, decodeOpcode_hlt, DecodeResult.instr?, Option.some.injEq] at h
    exact .inl ⟨rfl, h.symm⟩
  · simp only [decode, decodeOpcode_unknown h1 h2 h3, DecodeResult.instr?] at h
    simp at h

/-- Cutting the 256-bit number of four cells gives the four cells (R54). -/
theorem tableCells_tableWord (c0 c1 c2 c3 : Word) : tableCells 256 (tableWord c0 c1 c2 c3) = [c0, c1, c2, c3] := by
  have b0 := c0.isLt
  have b1 := c1.isLt
  have b2 := c2.isLt
  have b3 := c3.isLt
  simp only [tableCells, tableCell, tableWord, List.cons.injEq, and_true, Nat.shiftRight_eq_div_pow, Nat.shiftLeft_eq]
  norm_num at *
  refine ⟨?_, ?_, ?_, ?_⟩ <;> apply BitVec.eq_of_toNat_eq <;> simp only [BitVec.toNat_ofNat] <;> norm_num <;> omega

/-- What a legal image is, as propositions. -/
theorem imageWf_iff {depth : Nat} {cells : List Word} :
    imageWf depth cells = true ↔
      1 ≤ depth ∧ depth ≤ Config.maxDepth ∧ cells ≠ [] ∧ cells.length ≤ depth := by
  have h1 : decide (Config.minDepth ≤ depth) = true ↔ 1 ≤ depth := decide_eq_true_iff
  rw [imageWf, depthLegal, Bool.and_eq_true, Bool.and_eq_true, h1]
  cases cells <;> simp [imageNonEmpty, imageFits, and_assoc]

end Sys2Proof
end

