-- ==== Sys2Proof/Laws/Memory.lean ====
section
/-!
SUPPORT. The laws of the memory: read after write, the canonical form kept, and equality of memories that read alike.
-/

namespace Sys2Proof.Machine

@[simp] theorem read_nil (i : Nat) : Memory.read [] i = none := rfl

/-- Reading the cell just written. -/
@[simp] theorem read_write_same (m : Memory) (i : Nat) (v : Word) : (m.write i v).read i = some v := by
  induction m with
  | nil => simp [Memory.write, Memory.read]
  | cons c rest ih =>
    simp only [Memory.write]
    split
    · simp [Memory.read]
    · split
      · simp [Memory.read]
      · simp only [Memory.read, ih]
        rw [if_neg (by omega)]

/-- Every other cell is left alone. -/
theorem read_write_other (m : Memory) {i k : Nat} (v : Word) (h : k ≠ i) : (m.write i v).read k = m.read k := by
  induction m with
  | nil => simp [Memory.write, Memory.read, h]
  | cons c rest ih =>
    simp only [Memory.write]
    split
    · simp [Memory.read, h]
    · split
      · rename_i hi
        subst hi
        simp [Memory.read, h]
      · simp [Memory.read, ih]

theorem read_write (m : Memory) (i k : Nat) (v : Word) :
    (m.write i v).read k = if k = i then some v else m.read k := by
  split
  · rename_i h
    rw [h, read_write_same]
  · exact read_write_other m v ‹_›

/-- A written cell's index is the one written or was there before. -/
theorem mem_write {m : Memory} {i : Nat} {v : Word} {x : Nat × Word} (h : x ∈ m.write i v) :
    x = (i, v) ∨ x ∈ m := by
  induction m with
  | nil => simpa [Memory.write] using h
  | cons c rest ih =>
    simp only [Memory.write] at h
    split at h
    · simpa using h
    · split at h
      · rcases List.mem_cons.mp h with h | h
        · exact .inl h
        · exact .inr (List.mem_cons_of_mem _ h)
      · rcases List.mem_cons.mp h with h | h
        · exact .inr (h ▸ List.mem_cons_self)
        · exact (ih h).imp id (List.mem_cons_of_mem _)

theorem wf_nil : Memory.Wf [] := List.Pairwise.nil

/-- A write keeps the canonical form. -/
theorem wf_write {m : Memory} (h : m.Wf) (i : Nat) (v : Word) : (m.write i v).Wf := by
  induction m with
  | nil => exact List.pairwise_singleton _ _
  | cons c rest ih =>
    obtain ⟨hc, hr⟩ := List.pairwise_cons.mp h
    simp only [Memory.write]
    split
    · rename_i hi
      refine List.pairwise_cons.mpr ⟨fun x hx => ?_, h⟩
      rcases List.mem_cons.mp hx with rfl | hx
      · exact hi
      · exact Nat.lt_trans hi (hc x hx)
    · split
      · rename_i hi
        subst hi
        exact List.pairwise_cons.mpr ⟨hc, hr⟩
      · refine List.pairwise_cons.mpr ⟨fun x hx => ?_, ih hr⟩
        rcases mem_write hx with rfl | hx
        · simp only
          omega
        · exact hc x hx

/-- In canonical form, a listed cell reads as its entry. -/
theorem read_of_mem {m : Memory} (h : m.Wf) {i : Nat} {v : Word} (hx : (i, v) ∈ m) : m.read i = some v := by
  induction m with
  | nil => simp at hx
  | cons c rest ih =>
    obtain ⟨hc, hr⟩ := List.pairwise_cons.mp h
    rcases List.mem_cons.mp hx with rfl | hx
    · simp [Memory.read]
    · have := hc _ hx
      simp only [Memory.read]
      rw [if_neg (by simp only at this; omega), ih hr hx]

/-- A cell that reads as a value is listed with it. -/
theorem mem_of_read {m : Memory} {i : Nat} {v : Word} (h : m.read i = some v) : (i, v) ∈ m := by
  induction m with
  | nil => simp at h
  | cons c rest ih =>
    simp only [Memory.read] at h
    split at h
    · rename_i hi
      simp only [Option.some.injEq] at h
      exact List.mem_cons.mpr (.inl (by rw [hi, ← h]))
    · exact List.mem_cons_of_mem _ (ih h)

/-- Memories in canonical form that read alike are equal. -/
theorem memory_ext {m n : Memory} (hm : m.Wf) (hn : n.Wf) (h : ∀ i, m.read i = n.read i) : m = n := by
  have key : ∀ x : Nat × Word, x ∈ m ↔ x ∈ n := fun x =>
    ⟨fun hx => mem_of_read (h x.1 ▸ read_of_mem hm hx), fun hx => mem_of_read ((h x.1).symm ▸ read_of_mem hn hx)⟩
  have irr : ∀ l : Memory, l.Wf → l.Nodup := fun l hl =>
    hl.imp (fun {a b} hab heq => by rw [heq] at hab; exact Nat.lt_irrefl _ hab)
  refine List.Perm.eq_of_pairwise (le := fun x y => x.1 < y.1)
    (fun a b _ _ hab hba => absurd hab (Nat.lt_asymm hba)) hm hn ?_
  exact (List.perm_ext_iff_of_nodup (irr m hm) (irr n hn)).mpr key

end Sys2Proof.Machine
end

