-- ==== Sys2Proof/Laws/State.lean ====
section
/-!
SUPPORT. What each named update of the state does to each field: one lemma per field per update.
-/

namespace Sys2Proof.Machine

/-! ### `log` -/

@[simp] theorem log_mem (t : Transaction) (s : State) : (s.log t).mem = s.mem := rfl
@[simp] theorem log_len (t : Transaction) (s : State) : (s.log t).len = s.len := rfl
@[simp] theorem log_pc (t : Transaction) (s : State) : (s.log t).pc = s.pc := rfl
@[simp] theorem log_status (t : Transaction) (s : State) : (s.log t).status = s.status := rfl
@[simp] theorem log_noun (t : Transaction) (s : State) : (s.log t).noun = s.noun := rfl
@[simp] theorem log_verb (t : Transaction) (s : State) : (s.log t).verb = s.verb := rfl
@[simp] theorem log_result (t : Transaction) (s : State) : (s.log t).result = s.result := rfl
@[simp] theorem log_errCode (t : Transaction) (s : State) : (s.log t).errCode = s.errCode := rfl
@[simp] theorem log_errInfo0 (t : Transaction) (s : State) : (s.log t).errInfo0 = s.errInfo0 := rfl
@[simp] theorem log_errInfo1 (t : Transaction) (s : State) : (s.log t).errInfo1 = s.errInfo1 := rfl
@[simp] theorem log_latch (t : Transaction) (s : State) : (s.log t).latch = s.latch := rfl
@[simp] theorem log_mode (t : Transaction) (s : State) : (s.log t).mode = s.mode := rfl
@[simp] theorem log_port (t : Transaction) (s : State) : (s.log t).port = s.port ++ [t] := rfl
@[simp] theorem log_memDepth (t : Transaction) (s : State) : (s.log t).memDepth = s.memDepth := rfl
@[simp] theorem log_host (t : Transaction) (s : State) : (s.log t).host = s.host := rfl
@[simp] theorem log_hostData (t : Transaction) (s : State) : (s.log t).hostData = s.hostData := rfl
@[simp] theorem log_resets (t : Transaction) (s : State) : (s.log t).resets = s.resets := rfl
@[simp] theorem log_freeCount (t : Transaction) (s : State) : (s.log t).freeCount = s.freeCount := rfl
@[simp] theorem log_resetCount (t : Transaction) (s : State) : (s.log t).resetCount = s.resetCount := rfl

/-! ### `latched` -/

@[simp] theorem latched_mem (f : Latches → Latches) (s : State) : (s.latched f).mem = s.mem := rfl
@[simp] theorem latched_len (f : Latches → Latches) (s : State) : (s.latched f).len = s.len := rfl
@[simp] theorem latched_pc (f : Latches → Latches) (s : State) : (s.latched f).pc = s.pc := rfl
@[simp] theorem latched_status (f : Latches → Latches) (s : State) : (s.latched f).status = s.status := rfl
@[simp] theorem latched_noun (f : Latches → Latches) (s : State) : (s.latched f).noun = s.noun := rfl
@[simp] theorem latched_verb (f : Latches → Latches) (s : State) : (s.latched f).verb = s.verb := rfl
@[simp] theorem latched_result (f : Latches → Latches) (s : State) : (s.latched f).result = s.result := rfl
@[simp] theorem latched_errCode (f : Latches → Latches) (s : State) : (s.latched f).errCode = s.errCode := rfl
@[simp] theorem latched_errInfo0 (f : Latches → Latches) (s : State) : (s.latched f).errInfo0 = s.errInfo0 := rfl
@[simp] theorem latched_errInfo1 (f : Latches → Latches) (s : State) : (s.latched f).errInfo1 = s.errInfo1 := rfl
@[simp] theorem latched_latch (f : Latches → Latches) (s : State) : (s.latched f).latch = f s.latch := rfl
@[simp] theorem latched_mode (f : Latches → Latches) (s : State) : (s.latched f).mode = s.mode := rfl
@[simp] theorem latched_port (f : Latches → Latches) (s : State) : (s.latched f).port = s.port := rfl
@[simp] theorem latched_memDepth (f : Latches → Latches) (s : State) : (s.latched f).memDepth = s.memDepth := rfl
@[simp] theorem latched_host (f : Latches → Latches) (s : State) : (s.latched f).host = s.host := rfl
@[simp] theorem latched_hostData (f : Latches → Latches) (s : State) : (s.latched f).hostData = s.hostData := rfl
@[simp] theorem latched_resets (f : Latches → Latches) (s : State) : (s.latched f).resets = s.resets := rfl
@[simp] theorem latched_freeCount (f : Latches → Latches) (s : State) : (s.latched f).freeCount = s.freeCount := rfl
@[simp] theorem latched_resetCount (f : Latches → Latches) (s : State) : (s.latched f).resetCount = s.resetCount := rfl

/-! ### `memWrite` -/

@[simp] theorem memWrite_mem (i : Nat) (v : Word) (s : State) : (memWrite i v s).mem = s.mem.write i v := rfl
@[simp] theorem memWrite_len (i : Nat) (v : Word) (s : State) : (memWrite i v s).len = s.len := rfl
@[simp] theorem memWrite_pc (i : Nat) (v : Word) (s : State) : (memWrite i v s).pc = s.pc := rfl
@[simp] theorem memWrite_status (i : Nat) (v : Word) (s : State) : (memWrite i v s).status = s.status := rfl
@[simp] theorem memWrite_noun (i : Nat) (v : Word) (s : State) : (memWrite i v s).noun = s.noun := rfl
@[simp] theorem memWrite_verb (i : Nat) (v : Word) (s : State) : (memWrite i v s).verb = s.verb := rfl
@[simp] theorem memWrite_result (i : Nat) (v : Word) (s : State) : (memWrite i v s).result = s.result := rfl
@[simp] theorem memWrite_errCode (i : Nat) (v : Word) (s : State) : (memWrite i v s).errCode = s.errCode := rfl
@[simp] theorem memWrite_errInfo0 (i : Nat) (v : Word) (s : State) : (memWrite i v s).errInfo0 = s.errInfo0 := rfl
@[simp] theorem memWrite_errInfo1 (i : Nat) (v : Word) (s : State) : (memWrite i v s).errInfo1 = s.errInfo1 := rfl
@[simp] theorem memWrite_latch (i : Nat) (v : Word) (s : State) : (memWrite i v s).latch = s.latch := rfl
@[simp] theorem memWrite_mode (i : Nat) (v : Word) (s : State) : (memWrite i v s).mode = s.mode := rfl
@[simp] theorem memWrite_port (i : Nat) (v : Word) (s : State) : (memWrite i v s).port = s.port ++ [{ addr := i, we := true, data := v }] := rfl
@[simp] theorem memWrite_memDepth (i : Nat) (v : Word) (s : State) : (memWrite i v s).memDepth = s.memDepth := rfl
@[simp] theorem memWrite_host (i : Nat) (v : Word) (s : State) : (memWrite i v s).host = s.host := rfl
@[simp] theorem memWrite_hostData (i : Nat) (v : Word) (s : State) : (memWrite i v s).hostData = s.hostData := rfl
@[simp] theorem memWrite_resets (i : Nat) (v : Word) (s : State) : (memWrite i v s).resets = s.resets := rfl
@[simp] theorem memWrite_freeCount (i : Nat) (v : Word) (s : State) : (memWrite i v s).freeCount = s.freeCount := rfl
@[simp] theorem memWrite_resetCount (i : Nat) (v : Word) (s : State) : (memWrite i v s).resetCount = s.resetCount := rfl

/-! ### `takeFault` -/

@[simp] theorem takeFault_mem (f : HwFault) (s : State) : (takeFault f s).mem = s.mem := rfl
@[simp] theorem takeFault_len (f : HwFault) (s : State) : (takeFault f s).len = s.len := rfl
@[simp] theorem takeFault_pc (f : HwFault) (s : State) : (takeFault f s).pc = s.pc := rfl
@[simp] theorem takeFault_status (f : HwFault) (s : State) : (takeFault f s).status = .fault := rfl
@[simp] theorem takeFault_noun (f : HwFault) (s : State) : (takeFault f s).noun = s.noun := rfl
@[simp] theorem takeFault_verb (f : HwFault) (s : State) : (takeFault f s).verb = s.verb := rfl
@[simp] theorem takeFault_result (f : HwFault) (s : State) : (takeFault f s).result = s.result := rfl
@[simp] theorem takeFault_errCode (f : HwFault) (s : State) : (takeFault f s).errCode = f.kind := rfl
@[simp] theorem takeFault_errInfo0 (f : HwFault) (s : State) : (takeFault f s).errInfo0 = f.info0 := rfl
@[simp] theorem takeFault_errInfo1 (f : HwFault) (s : State) : (takeFault f s).errInfo1 = f.info1 := rfl
@[simp] theorem takeFault_latch (f : HwFault) (s : State) : (takeFault f s).latch = s.latch := rfl
@[simp] theorem takeFault_mode (f : HwFault) (s : State) : (takeFault f s).mode = s.mode := rfl
@[simp] theorem takeFault_port (f : HwFault) (s : State) : (takeFault f s).port = s.port := rfl
@[simp] theorem takeFault_memDepth (f : HwFault) (s : State) : (takeFault f s).memDepth = s.memDepth := rfl
@[simp] theorem takeFault_host (f : HwFault) (s : State) : (takeFault f s).host = s.host := rfl
@[simp] theorem takeFault_hostData (f : HwFault) (s : State) : (takeFault f s).hostData = s.hostData := rfl
@[simp] theorem takeFault_resets (f : HwFault) (s : State) : (takeFault f s).resets = s.resets := rfl
@[simp] theorem takeFault_freeCount (f : HwFault) (s : State) : (takeFault f s).freeCount = s.freeCount := rfl
@[simp] theorem takeFault_resetCount (f : HwFault) (s : State) : (takeFault f s).resetCount = s.resetCount := rfl

/-! ### `clearRecord` -/

@[simp] theorem clearRecord_mem (s : State) : (clearRecord s).mem = s.mem := rfl
@[simp] theorem clearRecord_len (s : State) : (clearRecord s).len = s.len := rfl
@[simp] theorem clearRecord_pc (s : State) : (clearRecord s).pc = s.pc := rfl
@[simp] theorem clearRecord_status (s : State) : (clearRecord s).status = s.status := rfl
@[simp] theorem clearRecord_noun (s : State) : (clearRecord s).noun = s.noun := rfl
@[simp] theorem clearRecord_verb (s : State) : (clearRecord s).verb = s.verb := rfl
@[simp] theorem clearRecord_result (s : State) : (clearRecord s).result = s.result := rfl
@[simp] theorem clearRecord_errCode (s : State) : (clearRecord s).errCode = .none := rfl
@[simp] theorem clearRecord_errInfo0 (s : State) : (clearRecord s).errInfo0 = 0 := rfl
@[simp] theorem clearRecord_errInfo1 (s : State) : (clearRecord s).errInfo1 = 0 := rfl
@[simp] theorem clearRecord_latch (s : State) : (clearRecord s).latch = s.latch := rfl
@[simp] theorem clearRecord_mode (s : State) : (clearRecord s).mode = s.mode := rfl
@[simp] theorem clearRecord_port (s : State) : (clearRecord s).port = s.port := rfl
@[simp] theorem clearRecord_memDepth (s : State) : (clearRecord s).memDepth = s.memDepth := rfl
@[simp] theorem clearRecord_host (s : State) : (clearRecord s).host = s.host := rfl
@[simp] theorem clearRecord_hostData (s : State) : (clearRecord s).hostData = s.hostData := rfl
@[simp] theorem clearRecord_resets (s : State) : (clearRecord s).resets = s.resets := rfl
@[simp] theorem clearRecord_freeCount (s : State) : (clearRecord s).freeCount = s.freeCount := rfl
@[simp] theorem clearRecord_resetCount (s : State) : (clearRecord s).resetCount = s.resetCount := rfl

/-! ### `clearCommand` -/

@[simp] theorem clearCommand_mem (s : State) : (clearCommand s).mem = s.mem := rfl
@[simp] theorem clearCommand_len (s : State) : (clearCommand s).len = s.len := rfl
@[simp] theorem clearCommand_pc (s : State) : (clearCommand s).pc = 0 := rfl
@[simp] theorem clearCommand_status (s : State) : (clearCommand s).status = .idle := rfl
@[simp] theorem clearCommand_noun (s : State) : (clearCommand s).noun = s.noun := rfl
@[simp] theorem clearCommand_verb (s : State) : (clearCommand s).verb = s.verb := rfl
@[simp] theorem clearCommand_result (s : State) : (clearCommand s).result = 0 := rfl
@[simp] theorem clearCommand_errCode (s : State) : (clearCommand s).errCode = .none := rfl
@[simp] theorem clearCommand_errInfo0 (s : State) : (clearCommand s).errInfo0 = 0 := rfl
@[simp] theorem clearCommand_errInfo1 (s : State) : (clearCommand s).errInfo1 = 0 := rfl
@[simp] theorem clearCommand_latch (s : State) : (clearCommand s).latch = s.latch := rfl
@[simp] theorem clearCommand_mode (s : State) : (clearCommand s).mode = s.mode := rfl
@[simp] theorem clearCommand_port (s : State) : (clearCommand s).port = s.port := rfl
@[simp] theorem clearCommand_memDepth (s : State) : (clearCommand s).memDepth = s.memDepth := rfl
@[simp] theorem clearCommand_host (s : State) : (clearCommand s).host = s.host := rfl
@[simp] theorem clearCommand_hostData (s : State) : (clearCommand s).hostData = s.hostData := rfl
@[simp] theorem clearCommand_resets (s : State) : (clearCommand s).resets = s.resets := rfl
@[simp] theorem clearCommand_freeCount (s : State) : (clearCommand s).freeCount = s.freeCount := rfl
@[simp] theorem clearCommand_resetCount (s : State) : (clearCommand s).resetCount = s.resetCount := rfl

/-! ### `proceed` -/

@[simp] theorem proceed_mem (s : State) : (proceed s).mem = s.mem := rfl
@[simp] theorem proceed_len (s : State) : (proceed s).len = s.len := rfl
@[simp] theorem proceed_pc (s : State) : (proceed s).pc = s.pc + 4 := rfl
@[simp] theorem proceed_status (s : State) : (proceed s).status = s.statusAfterProceed := rfl
@[simp] theorem proceed_noun (s : State) : (proceed s).noun = s.noun := rfl
@[simp] theorem proceed_verb (s : State) : (proceed s).verb = s.verb := rfl
@[simp] theorem proceed_result (s : State) : (proceed s).result = s.result := rfl
@[simp] theorem proceed_errCode (s : State) : (proceed s).errCode = s.errCode := rfl
@[simp] theorem proceed_errInfo0 (s : State) : (proceed s).errInfo0 = s.errInfo0 := rfl
@[simp] theorem proceed_errInfo1 (s : State) : (proceed s).errInfo1 = s.errInfo1 := rfl
@[simp] theorem proceed_latch (s : State) : (proceed s).latch = s.latch := rfl
@[simp] theorem proceed_mode (s : State) : (proceed s).mode = s.mode := rfl
@[simp] theorem proceed_port (s : State) : (proceed s).port = s.port := rfl
@[simp] theorem proceed_memDepth (s : State) : (proceed s).memDepth = s.memDepth := rfl
@[simp] theorem proceed_host (s : State) : (proceed s).host = s.host := rfl
@[simp] theorem proceed_hostData (s : State) : (proceed s).hostData = s.hostData := rfl
@[simp] theorem proceed_resets (s : State) : (proceed s).resets = s.resets := rfl
@[simp] theorem proceed_freeCount (s : State) : (proceed s).freeCount = s.freeCount := rfl
@[simp] theorem proceed_resetCount (s : State) : (proceed s).resetCount = s.resetCount := rfl

/-! ### `beginRun` -/

@[simp] theorem beginRun_mem (s : State) : (beginRun s).mem = s.mem := rfl
@[simp] theorem beginRun_len (s : State) : (beginRun s).len = s.len := rfl
@[simp] theorem beginRun_pc (s : State) : (beginRun s).pc = 0 := rfl
@[simp] theorem beginRun_status (s : State) : (beginRun s).status = .running := rfl
@[simp] theorem beginRun_noun (s : State) : (beginRun s).noun = s.noun := rfl
@[simp] theorem beginRun_verb (s : State) : (beginRun s).verb = s.verb := rfl
@[simp] theorem beginRun_result (s : State) : (beginRun s).result = s.result := rfl
@[simp] theorem beginRun_errCode (s : State) : (beginRun s).errCode = s.errCode := rfl
@[simp] theorem beginRun_errInfo0 (s : State) : (beginRun s).errInfo0 = s.errInfo0 := rfl
@[simp] theorem beginRun_errInfo1 (s : State) : (beginRun s).errInfo1 = s.errInfo1 := rfl
@[simp] theorem beginRun_latch (s : State) : (beginRun s).latch = s.latch := rfl
@[simp] theorem beginRun_mode (s : State) : (beginRun s).mode = .run := rfl
@[simp] theorem beginRun_port (s : State) : (beginRun s).port = s.port := rfl
@[simp] theorem beginRun_memDepth (s : State) : (beginRun s).memDepth = s.memDepth := rfl
@[simp] theorem beginRun_host (s : State) : (beginRun s).host = s.host := rfl
@[simp] theorem beginRun_hostData (s : State) : (beginRun s).hostData = s.hostData := rfl
@[simp] theorem beginRun_resets (s : State) : (beginRun s).resets = s.resets := rfl
@[simp] theorem beginRun_freeCount (s : State) : (beginRun s).freeCount = s.freeCount := rfl
@[simp] theorem beginRun_resetCount (s : State) : (beginRun s).resetCount = s.resetCount := rfl

/-! ### `tick` -/

@[simp] theorem tick_mem (s : State) : s.tick.mem = s.mem := rfl
@[simp] theorem tick_len (s : State) : s.tick.len = s.len := rfl
@[simp] theorem tick_pc (s : State) : s.tick.pc = s.pc := rfl
@[simp] theorem tick_status (s : State) : s.tick.status = s.status := rfl
@[simp] theorem tick_noun (s : State) : s.tick.noun = s.noun := rfl
@[simp] theorem tick_verb (s : State) : s.tick.verb = s.verb := rfl
@[simp] theorem tick_result (s : State) : s.tick.result = s.result := rfl
@[simp] theorem tick_errCode (s : State) : s.tick.errCode = s.errCode := rfl
@[simp] theorem tick_errInfo0 (s : State) : s.tick.errInfo0 = s.errInfo0 := rfl
@[simp] theorem tick_errInfo1 (s : State) : s.tick.errInfo1 = s.errInfo1 := rfl
@[simp] theorem tick_latch (s : State) : s.tick.latch = s.latch := rfl
@[simp] theorem tick_mode (s : State) : s.tick.mode = s.mode := rfl
@[simp] theorem tick_port (s : State) : s.tick.port = [] := rfl
@[simp] theorem tick_memDepth (s : State) : s.tick.memDepth = s.memDepth := rfl
@[simp] theorem tick_host (s : State) : s.tick.host = s.host := rfl
@[simp] theorem tick_hostData (s : State) : s.tick.hostData = s.hostData := rfl
@[simp] theorem tick_freeCount (s : State) : s.tick.freeCount = s.freeCount := rfl
@[simp] theorem tick_resetCount (s : State) : s.tick.resetCount = s.resetCount := rfl

/-! ### `fetched` -/

@[simp] theorem fetched_mem (op : Word) (s : State) : (s.fetched op).mem = s.mem := rfl
@[simp] theorem fetched_len (op : Word) (s : State) : (s.fetched op).len = s.len := rfl
@[simp] theorem fetched_pc (op : Word) (s : State) : (s.fetched op).pc = s.pc := rfl
@[simp] theorem fetched_status (op : Word) (s : State) : (s.fetched op).status = s.status := rfl
@[simp] theorem fetched_noun (op : Word) (s : State) : (s.fetched op).noun = s.noun := rfl
@[simp] theorem fetched_verb (op : Word) (s : State) : (s.fetched op).verb = s.verb := rfl
@[simp] theorem fetched_result (op : Word) (s : State) : (s.fetched op).result = s.result := rfl
@[simp] theorem fetched_errCode (op : Word) (s : State) : (s.fetched op).errCode = s.errCode := rfl
@[simp] theorem fetched_errInfo0 (op : Word) (s : State) : (s.fetched op).errInfo0 = s.errInfo0 := rfl
@[simp] theorem fetched_errInfo1 (op : Word) (s : State) : (s.fetched op).errInfo1 = s.errInfo1 := rfl
@[simp] theorem fetched_latch (op : Word) (s : State) : (s.fetched op).latch = { s.latch with op := op } := rfl
@[simp] theorem fetched_mode (op : Word) (s : State) : (s.fetched op).mode = s.mode := rfl
@[simp] theorem fetched_port (op : Word) (s : State) : (s.fetched op).port = s.port ++ [{ addr := s.pc.toNat, we := false, data := op }] := rfl
@[simp] theorem fetched_memDepth (op : Word) (s : State) : (s.fetched op).memDepth = s.memDepth := rfl
@[simp] theorem fetched_host (op : Word) (s : State) : (s.fetched op).host = s.host := rfl
@[simp] theorem fetched_hostData (op : Word) (s : State) : (s.fetched op).hostData = s.hostData := rfl
@[simp] theorem fetched_resets (op : Word) (s : State) : (s.fetched op).resets = s.resets := rfl
@[simp] theorem fetched_freeCount (op : Word) (s : State) : (s.fetched op).freeCount = s.freeCount := rfl
@[simp] theorem fetched_resetCount (op : Word) (s : State) : (s.fetched op).resetCount = s.resetCount := rfl

/-! ### `serving` -/

@[simp] theorem serving_mem (rest : List HostAction) (s : State) : (s.serving rest).mem = s.mem := rfl
@[simp] theorem serving_len (rest : List HostAction) (s : State) : (s.serving rest).len = s.len := rfl
@[simp] theorem serving_pc (rest : List HostAction) (s : State) : (s.serving rest).pc = s.pc := rfl
@[simp] theorem serving_status (rest : List HostAction) (s : State) : (s.serving rest).status = s.status := rfl
@[simp] theorem serving_noun (rest : List HostAction) (s : State) : (s.serving rest).noun = s.noun := rfl
@[simp] theorem serving_verb (rest : List HostAction) (s : State) : (s.serving rest).verb = s.verb := rfl
@[simp] theorem serving_result (rest : List HostAction) (s : State) : (s.serving rest).result = s.result := rfl
@[simp] theorem serving_errCode (rest : List HostAction) (s : State) : (s.serving rest).errCode = s.errCode := rfl
@[simp] theorem serving_errInfo0 (rest : List HostAction) (s : State) : (s.serving rest).errInfo0 = s.errInfo0 := rfl
@[simp] theorem serving_errInfo1 (rest : List HostAction) (s : State) : (s.serving rest).errInfo1 = s.errInfo1 := rfl
@[simp] theorem serving_latch (rest : List HostAction) (s : State) : (s.serving rest).latch = s.latch := rfl
@[simp] theorem serving_mode (rest : List HostAction) (s : State) : (s.serving rest).mode = s.mode := rfl
@[simp] theorem serving_port (rest : List HostAction) (s : State) : (s.serving rest).port = [] := rfl
@[simp] theorem serving_memDepth (rest : List HostAction) (s : State) : (s.serving rest).memDepth = s.memDepth := rfl
@[simp] theorem serving_host (rest : List HostAction) (s : State) : (s.serving rest).host = rest := rfl
@[simp] theorem serving_hostData (rest : List HostAction) (s : State) : (s.serving rest).hostData = s.hostData := rfl
@[simp] theorem serving_freeCount (rest : List HostAction) (s : State) : (s.serving rest).freeCount = s.freeCount := rfl
@[simp] theorem serving_resetCount (rest : List HostAction) (s : State) : (s.serving rest).resetCount = s.resetCount := rfl

/-! ### Derived values read LEN, MEM and PC alone -/

theorem bound_eq (s : State) : s.bound = s.len.toNat - s.len.toNat % 4 := rfl

@[simp] theorem tick_bound (s : State) : s.tick.bound = s.bound := rfl
@[simp] theorem fetched_bound (op : Word) (s : State) : (s.fetched op).bound = s.bound := rfl
@[simp] theorem tick_programCell (s : State) (p : Nat) : s.tick.programCell p = s.programCell p := rfl
@[simp] theorem fetched_programCell (op : Word) (s : State) (p : Nat) :
    (s.fetched op).programCell p = s.programCell p := rfl
@[simp] theorem log_operandBad (t : Transaction) (s : State) (a : Word) :
    (s.log t).operandBad a = s.operandBad a := rfl
@[simp] theorem latched_operandBad (f : Latches → Latches) (s : State) (a : Word) :
    (s.latched f).operandBad a = s.operandBad a := rfl
@[simp] theorem log_destBad (t : Transaction) (s : State) (a : Word) : (s.log t).destBad a = s.destBad a := rfl
@[simp] theorem latched_destBad (f : Latches → Latches) (s : State) (a : Word) :
    (s.latched f).destBad a = s.destBad a := rfl

/-- Cells from `p` on depend on MEM and LEN alone. -/
theorem cellsFrom_congr {s t : State} (hm : s.mem = t.mem) (hl : s.len = t.len) (n p : Nat) :
    s.cellsFrom n p = t.cellsFrom n p := by
  induction n generalizing p with
  | zero => rfl
  | succ n ih => simp only [State.cellsFrom, State.programCell, hm, hl, ih]

@[simp] theorem tick_slotCells (s : State) : s.tick.slotCells = s.slotCells := cellsFrom_congr rfl rfl _ _
@[simp] theorem fetched_slotCells (op : Word) (s : State) : (s.fetched op).slotCells = s.slotCells :=
  cellsFrom_congr rfl rfl _ _

end Sys2Proof.Machine
end

