-- ==== Sys2Proof/Laws/Ops.lean ====
section
/-!
SUPPORT. What each shared operation can do, said once: the accessors, `arith`, the ends of a step.
-/

namespace Sys2Proof.Machine

/-! ### Signed addresses -/

/-- A non-negative cell content is the same number read as signed and as unsigned. -/
theorem toNat_of_nonneg {a : Word} (h : 0 ≤ a.toInt) : (a.toNat : Int) = a.toInt := by
  rw [BitVec.toInt_eq_toNat_cond] at *
  split at h
  · rw [if_pos ‹_›]
  · omega

theorem operandBad_iff {s : State} {a : Word} :
    s.operandBad a = true ↔ a.toInt < 0 ∨ (s.len.toNat : Int) ≤ a.toInt := by
  simp [State.operandBad]

theorem operandBad_false_iff {s : State} {a : Word} :
    s.operandBad a = false ↔ 0 ≤ a.toInt ∧ a.toInt < (s.len.toNat : Int) := by
  simp [State.operandBad]

theorem destBad_iff {s : State} {d : Word} :
    s.destBad d = true ↔ d.toInt < 0 ∨ (s.len.toNat : Int) < d.toInt := by
  simp [State.destBad]

theorem destBad_false_iff {s : State} {d : Word} :
    s.destBad d = false ↔ 0 ≤ d.toInt ∧ d.toInt ≤ (s.len.toNat : Int) := by
  simp [State.destBad]

/-- An operand address that passes names a cell of the program. -/
theorem operand_lt {s : State} {a : Word} (h : s.operandBad a = false) : a.toNat < s.len.toNat := by
  obtain ⟨h0, h1⟩ := operandBad_false_iff.mp h
  have := toNat_of_nonneg h0
  omega

/-- A destination that passes, and is not LEN, names a cell of the program. -/
theorem dest_lt {s : State} {d : Word} (h : s.destBad d = false) (hne : d.toNat ≠ s.len.toNat) :
    d.toNat < s.len.toNat := by
  obtain ⟨h0, h1⟩ := destBad_false_iff.mp h
  have := toNat_of_nonneg h0
  omega

/-! ### The port and ReadCell -/

theorem memRead_some {s : State} {i : Nat} {v : Word} (h : s.mem.read i = some v) :
    memRead i s = .ok v (s.log { addr := i, we := false, data := v }) := by
  simp [memRead, h]

theorem memRead_none {s : State} {i : Nat} (h : s.mem.read i = none) : memRead i s = .stop (.unwrittenCell i) := by
  simp [memRead, h]

theorem readCellWith_above {s : State} {p : Nat} (c : Option Word) (h : s.len.toNat < p) :
    readCellWith c p s = .raise (.programPosition p) s := by
  simp [readCellWith, h]

theorem readCellWith_at {s : State} {p : Nat} (c : Option Word) (h : p = s.len.toNat) :
    readCellWith c p s = .raise (.pastEnd p) s := by
  simp [readCellWith, h]

theorem readCellWith_some {s : State} {p : Nat} (v : Word) (h : p < s.len.toNat) :
    readCellWith (some v) p s = .ok v (s.log { addr := p, we := false, data := v }) := by
  simp [readCellWith, Nat.not_lt.mpr (Nat.le_of_lt h), Nat.ne_of_lt h]

theorem readCellWith_none {s : State} {p : Nat} (h : p < s.len.toNat) :
    readCellWith none p s = .stop (.unwrittenCell p) := by
  simp [readCellWith, Nat.not_lt.mpr (Nat.le_of_lt h), Nat.ne_of_lt h]

@[simp] theorem andThen_ok {α β : Type} (v : α) (s : State) (k : α → State → Res β) :
    (Res.ok v s).andThen k = k v s := rfl

@[simp] theorem andThen_raise {α β : Type} (f : HwFault) (s : State) (k : α → State → Res β) :
    (Res.raise f s).andThen k = .raise f s := rfl

@[simp] theorem andThen_stop {α β : Type} (f : Fault) (k : α → State → Res β) :
    (Res.stop f : Res α).andThen k = .stop f := rfl

@[simp] theorem toOutcome_ok (v : Unit) (s : State) : (Res.ok v s).toOutcome = .next (proceed s) := rfl
@[simp] theorem toOutcome_raise (f : HwFault) (s : State) :
    (Res.raise f s : Res Unit).toOutcome = .next (takeFault f s) := rfl
@[simp] theorem toOutcome_stop (f : Fault) : (Res.stop f : Res Unit).toOutcome = .fault f := rfl

theorem checkDest_bad {s : State} {d : Word} (h : s.destBad d = true) :
    checkDest d s = .raise (.modifyPosition d) s := by
  simp [checkDest, h]

theorem checkDest_good {s : State} {d : Word} (h : s.destBad d = false) : checkDest d s = .ok () s := by
  simp [checkDest, h]

theorem writeCell_at {s : State} {d : Word} (v : Word) (h : d.toNat = s.len.toNat) :
    writeCell d v s = .raise (.pastEnd d.toNat) s := by
  simp [writeCell, h]

theorem writeCell_below {s : State} {d : Word} (v : Word) (h : d.toNat ≠ s.len.toNat) :
    writeCell d v s = .ok () (memWrite d.toNat v s) := by
  simp [writeCell, h]

/-! ### ReadOperand -/

/-- The operand's state after its field is fetched and latched. -/
def State.afterField (o : Operand) (a : Word) (s : State) : State :=
  (s.log { addr := s.pc.toNat + o.offset, we := false, data := a }).latched (o.latchField a)

/-- The operand's state after its value is read and latched. -/
def State.afterValue (o : Operand) (a v : Word) (s : State) : State :=
  ((s.afterField o a).log { addr := a.toNat, we := false, data := v }).latched (o.latchValue v)

theorem readOperand_bad {s : State} {o : Operand} {a : Word} (hp : s.pc.toNat + o.offset < s.len.toNat)
    (h : s.operandBad a = true) :
    readOperand o (some a) s = .raise (.argumentPosition (s.pc.toNat + o.offset) a) (s.afterField o a) := by
  simp [readOperand, readCellWith_some a hp, h, State.afterField]

theorem readOperand_ok {s : State} {o : Operand} {a v : Word} (hp : s.pc.toNat + o.offset < s.len.toNat)
    (h : s.operandBad a = false) (hv : s.mem.read a.toNat = some v) :
    readOperand o (some a) s = .ok v (s.afterValue o a v) := by
  simp [readOperand, readCellWith_some a hp, h, memRead, hv, State.afterValue, State.afterField]

theorem readOperand_unwritten {s : State} {o : Operand} {a : Word} (hp : s.pc.toNat + o.offset < s.len.toNat)
    (h : s.operandBad a = false) (hv : s.mem.read a.toNat = none) :
    readOperand o (some a) s = .stop (.unwrittenCell a.toNat) := by
  simp [readOperand, readCellWith_some a hp, h, memRead, hv]

theorem readOperand_none {s : State} {o : Operand} (hp : s.pc.toNat + o.offset < s.len.toNat) :
    readOperand o none s = .stop (.unwrittenCell (s.pc.toNat + o.offset)) := by
  simp [readOperand, readCellWith_none hp]

/-! ### Scratch: what a step may change besides its result -/

/-- `t` is `s` but for the latches and the transaction record; the opcode latch is as it was. -/
structure Scratch (s t : State) : Prop where
  same : t = { s with latch := t.latch, port := t.port }
  op : t.latch.op = s.latch.op

theorem Scratch.refl (s : State) : Scratch s s := ⟨rfl, rfl⟩

theorem Scratch.trans {s t u : State} (h : Scratch s t) (k : Scratch t u) : Scratch s u :=
  ⟨by rw [k.same, h.same], k.op.trans h.op⟩

theorem Scratch.mem {s t : State} (h : Scratch s t) : t.mem = s.mem := by rw [h.same]
theorem Scratch.len {s t : State} (h : Scratch s t) : t.len = s.len := by rw [h.same]
theorem Scratch.pc {s t : State} (h : Scratch s t) : t.pc = s.pc := by rw [h.same]
theorem Scratch.operandBad {s t : State} (h : Scratch s t) (a : Word) : t.operandBad a = s.operandBad a := by
  rw [h.same]; rfl
theorem Scratch.destBad {s t : State} (h : Scratch s t) (d : Word) : t.destBad d = s.destBad d := by
  rw [h.same]; rfl

theorem scratch_afterField (o : Operand) (a : Word) (s : State) : Scratch s (s.afterField o a) :=
  ⟨rfl, by cases o <;> rfl⟩

theorem scratch_afterValue (o : Operand) (a v : Word) (s : State) : Scratch s (s.afterValue o a v) :=
  (scratch_afterField o a s).trans ⟨rfl, by cases o <;> rfl⟩

/-! ### Arith -/

/-- The state of `Arith` after the destination field is fetched and latched. -/
def State.afterDest (d : Word) (s : State) : State :=
  (s.log { addr := s.pc.toNat + 3, we := false, data := d }).latched fun l => { l with d := d }

/-- The state of `Arith` after the ALU's result is latched. -/
def State.afterAlu (r : Word) (s : State) : State := s.latched fun l => { l with r := r }

/-- The state of `Arith` before the write. -/
def State.beforeWrite (f : Word → Word → Word) (a b d va vb : Word) (s : State) : State :=
  (((s.afterDest d).afterValue .first a va).afterValue .second b vb).afterAlu (f va vb)

theorem scratch_afterDest (d : Word) (s : State) : Scratch s (s.afterDest d) := ⟨rfl, rfl⟩
theorem scratch_afterAlu (r : Word) (s : State) : Scratch s (s.afterAlu r) := ⟨rfl, rfl⟩
@[simp] theorem afterAlu_r (r : Word) (s : State) : (s.afterAlu r).latch.r = r := rfl

theorem scratch_beforeWrite (f : Word → Word → Word) (a b d va vb : Word) (s : State) :
    Scratch s (s.beforeWrite f a b d va vb) :=
  (((scratch_afterDest d s).trans (scratch_afterValue ..)).trans (scratch_afterValue ..)).trans (scratch_afterAlu ..)

/-- `Arith` from the fetch of the destination field on. -/
theorem arith_start (f : Word → Word → Word) (a b : Option Word) (d : Word) {s : State}
    (h : s.pc.toNat + 3 < s.len.toNat) :
    arith f a b (some d) s =
      (checkDest d (s.afterDest d)).andThen fun _ s2 =>
      (readOperand .first a s2).andThen fun va s3 =>
      (readOperand .second b s3).andThen fun vb s4 =>
      writeCell d (f va vb) (s4.afterAlu (f va vb)) := by
  rw [arith, readCellWith_some d h, andThen_ok]
  rfl

/-- The operand's field lies below LEN where the destination's does. -/
theorem field_lt {s t : State} (h : Scratch s t) (h3 : s.pc.toNat + 3 < s.len.toNat) (o : Operand) :
    t.pc.toNat + o.offset < t.len.toNat := by
  rw [h.pc, h.len]
  cases o <;> simp only [Operand.offset] <;> omega

/-- Everything `Arith` can do where its three fields hold values, in the order of R95. -/
theorem arith_eq (f : Word → Word → Word) (a b d : Word) (s : State) :
    arith f (some a) (some b) (some d) s =
      if s.len.toNat < s.pc.toNat + 3 then .raise (.programPosition (s.pc.toNat + 3)) s
      else if s.pc.toNat + 3 = s.len.toNat then .raise (.pastEnd (s.pc.toNat + 3)) s
      else if s.destBad d then .raise (.modifyPosition d) (s.afterDest d)
      else if s.operandBad a then
        .raise (.argumentPosition (s.pc.toNat + 1) a) ((s.afterDest d).afterField .first a)
      else
        match s.mem.read a.toNat with
        | none => .stop (.unwrittenCell a.toNat)
        | some va =>
          if s.operandBad b then
            .raise (.argumentPosition (s.pc.toNat + 2) b)
              (((s.afterDest d).afterValue .first a va).afterField .second b)
          else
            match s.mem.read b.toNat with
            | none => .stop (.unwrittenCell b.toNat)
            | some vb =>
              if d.toNat = s.len.toNat then .raise (.pastEnd d.toNat) (s.beforeWrite f a b d va vb)
              else .ok () (memWrite d.toNat (f va vb) (s.beforeWrite f a b d va vb)) := by
  by_cases h1 : s.len.toNat < s.pc.toNat + 3
  · rw [arith, readCellWith_above _ h1, if_pos h1, andThen_raise]
  by_cases h2 : s.pc.toNat + 3 = s.len.toNat
  · rw [arith, readCellWith_at _ h2, if_neg h1, if_pos h2, andThen_raise]
  have h3 : s.pc.toNat + 3 < s.len.toNat := by omega
  rw [arith_start f _ _ d h3, if_neg h1, if_neg h2]
  have k1 := scratch_afterDest d s
  by_cases hb : s.destBad d = true
  · rw [checkDest_bad ((k1.destBad d).trans hb), if_pos hb, andThen_raise]
  rw [if_neg hb]
  simp only [Bool.not_eq_true] at hb
  rw [checkDest_good ((k1.destBad d).trans hb), andThen_ok]
  have p1 := field_lt k1 h3 .first
  by_cases ha : s.operandBad a = true
  · rw [readOperand_bad p1 ((k1.operandBad a).trans ha), if_pos ha, andThen_raise, k1.pc]
    rfl
  rw [if_neg ha]
  simp only [Bool.not_eq_true] at ha
  have ha' := (k1.operandBad a).trans ha
  cases hva : s.mem.read a.toNat with
  | none => rw [readOperand_unwritten p1 ha' (by rw [k1.mem, hva]), andThen_stop]
  | some va =>
    rw [readOperand_ok p1 ha' (by rw [k1.mem, hva]), andThen_ok]
    have k2 := k1.trans (scratch_afterValue .first a va _)
    have p2 := field_lt k2 h3 .second
    by_cases hbb : s.operandBad b = true
    · rw [readOperand_bad p2 ((k2.operandBad b).trans hbb), andThen_raise, k2.pc]
      simp only [hbb, if_true]
      rfl
    simp only [hbb]
    simp only [Bool.not_eq_true] at hbb
    have hbb' := (k2.operandBad b).trans hbb
    cases hvb : s.mem.read b.toNat with
    | none => rw [readOperand_unwritten p2 hbb' (by rw [k2.mem, hvb]), andThen_stop]; rfl
    | some vb =>
      rw [readOperand_ok p2 hbb' (by rw [k2.mem, hvb]), andThen_ok]
      have k3 := scratch_beforeWrite f a b d va vb s
      by_cases hl : d.toNat = s.len.toNat
      · simp only [hl, if_true]
        rw [← hl, ← writeCell_at (f va vb) (s := s.beforeWrite f a b d va vb) (by rw [k3.len, hl])]
        rfl
      · simp only [hl, if_false]
        rw [← writeCell_below (f va vb) (s := s.beforeWrite f a b d va vb) (by rw [k3.len]; exact hl)]
        rfl

/-- What a raised fault says of the state it was raised in (R88 to R92). -/
def Raised (s : State) (d : Option Word) (g : HwFault) : Prop :=
  (g = .programPosition (s.pc.toNat + 3) ∧ s.len.toNat < s.pc.toNat + 3) ∨
  (g = .pastEnd s.len.toNat ∧ (s.len.toNat = s.pc.toNat + 3 ∨ ∃ x, d = some x ∧ x.toNat = s.len.toNat)) ∨
  (∃ x, g = .modifyPosition x ∧ s.destBad x = true) ∨
  (∃ p x, g = .argumentPosition p x ∧ (p = s.pc.toNat + 1 ∨ p = s.pc.toNat + 2) ∧ s.operandBad x = true)

/-- Everything `Arith` can do, whatever of its fields is there: it stores one result at a destination below LEN, raises a
fault with nothing stored, or stops at a cell below LEN that nothing has written. -/
theorem arith_cases (f : Word → Word → Word) (a b d : Option Word) (s : State) :
    (∃ x u, arith f a b d s = .ok () (memWrite x.toNat u.latch.r u) ∧ d = some x ∧ s.destBad x = false ∧
        s.pc.toNat + 3 < s.len.toNat ∧ x.toNat < s.len.toNat ∧ Scratch s u) ∨
    (∃ g t, arith f a b d s = .raise g t ∧ Scratch s t ∧ Raised s d g) ∨
    (∃ i, arith f a b d s = .stop (.unwrittenCell i) ∧ i < s.len.toNat ∧
        (s.mem.read i = none ∨ i = s.pc.toNat + 1 ∧ a = none ∨ i = s.pc.toNat + 2 ∧ b = none ∨
          i = s.pc.toNat + 3 ∧ d = none)) := by
  by_cases h1 : s.len.toNat < s.pc.toNat + 3
  · exact .inr (.inl ⟨_, s, by rw [arith, readCellWith_above _ h1, andThen_raise], .refl s, .inl ⟨rfl, h1⟩⟩)
  by_cases h2 : s.pc.toNat + 3 = s.len.toNat
  · exact .inr (.inl ⟨_, s, by rw [arith, readCellWith_at _ h2, andThen_raise], .refl s,
      .inr (.inl ⟨by rw [h2], .inl h2.symm⟩)⟩)
  have h3 : s.pc.toNat + 3 < s.len.toNat := by omega
  cases d with
  | none =>
    exact .inr (.inr ⟨_, by rw [arith, readCellWith_none h3, andThen_stop], h3, .inr (.inr (.inr ⟨rfl, rfl⟩))⟩)
  | some d =>
    rw [arith_start f _ _ d h3]
    have k1 := scratch_afterDest d s
    by_cases hb : s.destBad d = true
    · exact .inr (.inl ⟨_, _, by rw [checkDest_bad ((k1.destBad d).trans hb), andThen_raise], k1,
        .inr (.inr (.inl ⟨d, rfl, hb⟩))⟩)
    simp only [Bool.not_eq_true] at hb
    rw [checkDest_good ((k1.destBad d).trans hb), andThen_ok]
    have p1 := field_lt k1 h3 .first
    cases a with
    | none =>
      exact .inr (.inr ⟨_, by rw [readOperand_none p1, andThen_stop], k1.len ▸ p1,
        .inr (.inl ⟨by rw [k1.pc]; rfl, rfl⟩)⟩)
    | some a =>
      by_cases ha : s.operandBad a = true
      · refine .inr (.inl ⟨_, _, by rw [readOperand_bad p1 ((k1.operandBad a).trans ha), andThen_raise],
          k1.trans (scratch_afterField ..), .inr (.inr (.inr ⟨_, a, rfl, .inl ?_, ha⟩))⟩)
        rw [k1.pc]; rfl
      simp only [Bool.not_eq_true] at ha
      have ha' := (k1.operandBad a).trans ha
      cases hva : s.mem.read a.toNat with
      | none =>
        exact .inr (.inr ⟨_, by rw [readOperand_unwritten p1 ha' (by rw [k1.mem, hva]), andThen_stop], operand_lt ha,
          .inl hva⟩)
      | some va =>
        rw [readOperand_ok p1 ha' (by rw [k1.mem, hva]), andThen_ok]
        have k2 := k1.trans (scratch_afterValue .first a va _)
        have p2 := field_lt k2 h3 .second
        cases b with
        | none =>
          exact .inr (.inr ⟨_, by rw [readOperand_none p2, andThen_stop], k2.len ▸ p2,
            .inr (.inr (.inl ⟨by rw [k2.pc]; rfl, rfl⟩))⟩)
        | some b =>
          by_cases hbb : s.operandBad b = true
          · refine .inr (.inl ⟨_, _, by rw [readOperand_bad p2 ((k2.operandBad b).trans hbb), andThen_raise],
              k2.trans (scratch_afterField ..), .inr (.inr (.inr ⟨_, b, rfl, .inr ?_, hbb⟩))⟩)
            rw [k2.pc]; rfl
          simp only [Bool.not_eq_true] at hbb
          have hbb' := (k2.operandBad b).trans hbb
          cases hvb : s.mem.read b.toNat with
          | none =>
            exact .inr (.inr ⟨_, by rw [readOperand_unwritten p2 hbb' (by rw [k2.mem, hvb]), andThen_stop],
              operand_lt hbb, .inl hvb⟩)
          | some vb =>
            rw [readOperand_ok p2 hbb' (by rw [k2.mem, hvb]), andThen_ok]
            have k4 := (k2.trans (scratch_afterValue .second b vb _)).trans (scratch_afterAlu (f va vb) _)
            by_cases hl : d.toNat = s.len.toNat
            · refine .inr (.inl ⟨_, _, writeCell_at _ (by rw [k4.len, hl]), k4,
                .inr (.inl ⟨by rw [hl], .inr ⟨d, rfl, hl⟩⟩)⟩)
            · exact .inl ⟨d, _, writeCell_below _ (by rw [k4.len]; exact hl), rfl, hb, h3, dest_lt hb hl, k4⟩

/-! ### The ends of a step -/

theorem finish_some {s : State} (st : Status) {v : Word} (h : s.mem.read 0 = some v) :
    finish st s =
      .next { s with status := st, result := v, port := s.port ++ [{ addr := 0, we := false, data := v }] } := by
  simp [finish, memRead, Config.resultCell, h, State.log]

theorem finish_none {s : State} (st : Status) (h : s.mem.read 0 = none) :
    finish st s = .fault (.unwrittenCell 0) := by
  simp [finish, memRead, Config.resultCell, h]

end Sys2Proof.Machine
end

