-- ==== Sys2Proof/Laws/Step.lean ====
section
/-!
SUPPORT. What fetch, dispatch and one transition can do, said once: `dispatchSlot_eq` is R77's pseudocode, `running_next`
inverts a running datapath's step, `host_next` the host's turn.
-/

namespace Sys2Proof.Machine

/-! ### Decoding -/

theorem programCell_of_lt {s : State} {p : Nat} (h : p < s.len.toNat) : s.programCell p = s.mem.read p := by
  simp [State.programCell, h]

theorem programCell_some {s : State} {p : Nat} {v : Word} (h : s.programCell p = some v) :
    p < s.len.toNat ∧ s.mem.read p = some v := by
  unfold State.programCell at h
  split at h
  · exact ⟨‹_›, h⟩
  · simp at h

theorem programCell_none {s : State} {p : Nat} (hp : p < s.len.toNat) (h : s.programCell p = none) :
    s.mem.read p = none := programCell_of_lt hp ▸ h

theorem Scratch.programCell {s t : State} (h : Scratch s t) (p : Nat) : t.programCell p = s.programCell p := by
  rw [h.same]; rfl

/-- The slot at PC, its opcode cell being there. -/
theorem slotCells_eq {s : State} {op : Word} (h : s.programCell s.pc.toNat = some op) :
    s.slotCells = op :: s.cellsFrom 3 (s.pc.toNat + 1) := by
  simp [State.slotCells, Config.stride, State.cellsFrom, h]

/-- The three field cells are there exactly where the three of them can be read. -/
theorem fields_eq (s : State) :
    s.cellsFrom 3 (s.pc.toNat + 1) =
      match s.programCell (s.pc.toNat + 1), s.programCell (s.pc.toNat + 2), s.programCell (s.pc.toNat + 3) with
      | some a, some b, some d => [a, b, d]
      | some a, some b, none => [a, b]
      | some a, none, _ => [a]
      | none, _, _ => [] := by
  simp only [State.cellsFrom, Nat.add_assoc, Nat.reduceAdd]
  cases s.programCell (s.pc.toNat + 1) <;> cases s.programCell (s.pc.toNat + 2) <;>
    cases s.programCell (s.pc.toNat + 3) <;> rfl

/-- R77's dispatch: where the opcode cell is there, ADD and MUL are `Arith` on what the field cells hold, HLT stops the
run, and every other opcode is unknown. -/
theorem dispatchSlot_eq {s : State} {op : Word} (h : s.programCell s.pc.toNat = some op) :
    dispatchSlot s =
      if op = 1 then arithInPlace aluAdd s
      else if op = 2 then arithInPlace aluMul s
      else if op = 99 then finish .halted s
      else .next (takeFault (.unknownOpcode op s.pc.toNat) s) := by
  rw [dispatchSlot, slotCells_eq h]
  by_cases h1 : op = 1
  · rw [if_pos h1]
    subst h1
    simp only [decode, decodeOpcode_add, fields_eq]
    cases ha : s.programCell (s.pc.toNat + 1) <;> cases hb : s.programCell (s.pc.toNat + 2) <;>
      cases hd : s.programCell (s.pc.toNat + 3) <;> simp only [arithInPlace, exec, execAdd, ha, hb, hd]
  rw [if_neg h1]
  by_cases h2 : op = 2
  · rw [if_pos h2]
    subst h2
    simp only [decode, decodeOpcode_mul, fields_eq]
    cases ha : s.programCell (s.pc.toNat + 1) <;> cases hb : s.programCell (s.pc.toNat + 2) <;>
      cases hd : s.programCell (s.pc.toNat + 3) <;> simp only [arithInPlace, exec, execMul, ha, hb, hd]
  rw [if_neg h2]
  by_cases h3 : op = 99
  · rw [if_pos h3]
    subst h3
    simp only [decode, decodeOpcode_hlt, exec, execHlt]
  · rw [if_neg h3]
    simp only [decode, decodeOpcode_unknown h1 h2 h3]

/-- What is decoded at PC, from the opcode cell and the three field cells. -/
theorem decode_slot {s : State} {i : Instr} (h : decode s.slotCells = .instr i) :
    ∃ op, s.programCell s.pc.toNat = some op ∧
      ((op = 99 ∧ i = .hlt) ∨
        ∃ a b d, s.programCell (s.pc.toNat + 1) = some a ∧ s.programCell (s.pc.toNat + 2) = some b ∧
          s.programCell (s.pc.toNat + 3) = some d ∧ (op = 1 ∧ i = .add a b d ∨ op = 2 ∧ i = .mul a b d)) := by
  cases hop : s.programCell s.pc.toNat with
  | none =>
    have : s.slotCells = [] := by simp [State.slotCells, Config.stride, State.cellsFrom, hop]
    simp [this, decode] at h
  | some op =>
    rw [slotCells_eq hop] at h
    refine ⟨op, rfl, ?_⟩
    by_cases h1 : op = 1
    · subst h1
      simp only [decode, decodeOpcode_add, fields_eq] at h
      right
      cases ha : s.programCell (s.pc.toNat + 1) <;> cases hb : s.programCell (s.pc.toNat + 2) <;>
        cases hd : s.programCell (s.pc.toNat + 3) <;> simp_all
    by_cases h2 : op = 2
    · subst h2
      simp only [decode, decodeOpcode_mul, fields_eq] at h
      right
      cases ha : s.programCell (s.pc.toNat + 1) <;> cases hb : s.programCell (s.pc.toNat + 2) <;>
        cases hd : s.programCell (s.pc.toNat + 3) <;> simp_all
    by_cases h3 : op = 99
    · subst h3
      simp only [decode, decodeOpcode_hlt, DecodeResult.instr.injEq] at h
      exact .inl ⟨rfl, h.symm⟩
    · simp only [decode, decodeOpcode_unknown h1 h2 h3] at h
      simp at h

/-! ### One transition -/

theorem step_reset {s : State} (h : s.resetDue = true) : step s = .next (hardReset s) := by
  simp [step, transition, h]

theorem step_running {s : State} (hr : s.status = .running) (hd : s.resetDue = false) : step s = running s.tick := by
  simp [step, transition, hr, hd]

theorem step_host {s : State} (hr : s.status ≠ .running) (hd : s.resetDue = false) :
    step s = .next (hostTurn s.tick) := by
  simp [step, transition, hr, hd]

theorem step_atInstruction {s : State} (h : AtInstruction s) : step s = stepAtPc s.tick := by
  obtain ⟨hr, hd, hb⟩ := h
  rw [step_running hr hd, running]
  cases hm : s.mode with
  | run => simp [hm, Nat.not_le.mpr (hb hm)]
  | single => simp [hm]

theorem stepAtPc_above {s : State} (h : s.len.toNat < s.pc.toNat) :
    stepAtPc s = .next (takeFault (.programPosition s.pc.toNat) s) := by
  rw [stepAtPc, readCell, readCellWith_above _ h]

theorem stepAtPc_at {s : State} (h : s.pc.toNat = s.len.toNat) :
    stepAtPc s = .next (takeFault (.pastEnd s.pc.toNat) s) := by
  rw [stepAtPc, readCell, readCellWith_at _ h]

theorem stepAtPc_none {s : State} (h : s.pc.toNat < s.len.toNat) (hv : s.mem.read s.pc.toNat = none) :
    stepAtPc s = .fault (.unwrittenCell s.pc.toNat) := by
  rw [stepAtPc, readCell, hv, readCellWith_none h]

theorem stepAtPc_some {s : State} {op : Word} (h : s.pc.toNat < s.len.toNat)
    (hv : s.mem.read s.pc.toNat = some op) : stepAtPc s = dispatchSlot (s.fetched op) := by
  rw [stepAtPc, readCell, hv, readCellWith_some op h]
  rfl

/-- `t` is `s` at the start of its transition but for the latches and the transaction record. -/
def Touched (s t : State) : Prop := t = { s.tick with latch := t.latch, port := t.port }

theorem Touched.mem {s u : State} (h : Touched s u) : u.mem = s.mem := by rw [h]; rfl
theorem Touched.len {s u : State} (h : Touched s u) : u.len = s.len := by rw [h]; rfl
theorem Touched.pc {s u : State} (h : Touched s u) : u.pc = s.pc := by rw [h]; rfl
theorem Touched.status {s u : State} (h : Touched s u) : u.status = s.status := by rw [h]; rfl
theorem Touched.mode {s u : State} (h : Touched s u) : u.mode = s.mode := by rw [h]; rfl
theorem Touched.result {s u : State} (h : Touched s u) : u.result = s.result := by rw [h]; rfl
theorem Touched.errCode {s u : State} (h : Touched s u) : u.errCode = s.errCode := by rw [h]; rfl
theorem Touched.errInfo0 {s u : State} (h : Touched s u) : u.errInfo0 = s.errInfo0 := by rw [h]; rfl
theorem Touched.errInfo1 {s u : State} (h : Touched s u) : u.errInfo1 = s.errInfo1 := by rw [h]; rfl
theorem Touched.memDepth {s u : State} (h : Touched s u) : u.memDepth = s.memDepth := by rw [h]; rfl
theorem Touched.noun {s u : State} (h : Touched s u) : u.noun = s.noun := by rw [h]; rfl
theorem Touched.verb {s u : State} (h : Touched s u) : u.verb = s.verb := by rw [h]; rfl
theorem Touched.host {s u : State} (h : Touched s u) : u.host = s.host := by rw [h]; rfl
theorem Touched.hostData {s u : State} (h : Touched s u) : u.hostData = s.hostData := by rw [h]; rfl
theorem Touched.freeCount {s u : State} (h : Touched s u) : u.freeCount = s.freeCount := by rw [h]; rfl
theorem Touched.resetCount {s u : State} (h : Touched s u) : u.resetCount = s.resetCount := by rw [h]; rfl
theorem Touched.resets {s u : State} (h : Touched s u) : u.resets = s.tick.resets := by rw [h]

theorem Scratch.touched {s t : State} {op : Word} (h : Scratch (s.tick.fetched op) t) : Touched s t := by
  unfold Touched
  rw [h.same]
  rfl

/-- What a fault raised at an instruction says of the state (R88 to R92). -/
def RaisedAt (s : State) (g : HwFault) : Prop :=
  (g = .programPosition s.pc.toNat ∧ s.len.toNat < s.pc.toNat) ∨
  (g = .pastEnd s.len.toNat ∧ s.pc.toNat = s.len.toNat) ∨
  (∃ op, g = .unknownOpcode op s.pc.toNat ∧ op ≠ 1 ∧ op ≠ 2 ∧ op ≠ 99 ∧ s.mem.read s.pc.toNat = some op ∧
    s.pc.toNat < s.len.toNat) ∨
  (s.pc.toNat < s.len.toNat ∧ Raised s (s.programCell (s.pc.toNat + 3)) g)

/-- The outcomes a step of a running datapath can have: the scan ends, one result is stored and the PC advances, a fault
is raised, a HLT ends it, or the model stops at a cell below LEN (cell 0 at the end of a run) that nothing has
written. -/
inductive RunningStep (s : State) : Host.Outcome State Fault Refusal → Prop where
  | ended (v : Word) (hm : s.mode = .run) (hb : s.bound ≤ s.pc.toNat) (h0 : s.mem.read 0 = some v) :
    RunningStep s
      (.next { s.tick with status := .ended, result := v, port := [{ addr := 0, we := false, data := v }] })
  | stored (d : Word) (u : State) (hat : AtInstruction s) (hu : Touched s u) (h3 : s.pc.toNat + 3 < s.len.toNat)
    (hd : s.mem.read (s.pc.toNat + 3) = some d) (hl : d.toNat < s.len.toNat) :
    RunningStep s (.next (proceed (memWrite d.toNat u.latch.r u)))
  | raised (g : HwFault) (u : State) (hat : AtInstruction s) (hu : Touched s u) (hg : RaisedAt s g) :
    RunningStep s (.next (takeFault g u))
  | halted (u : State) (v : Word) (hat : AtInstruction s) (hu : Touched s u) (hl : s.pc.toNat < s.len.toNat)
    (hop : s.mem.read s.pc.toNat = some 99) (h0 : s.mem.read 0 = some v) :
    RunningStep s (.next { u with status := .halted, result := v })
  | stuck (i : Nat) (h : s.mem.read i = none) (hi : i < s.len.toNat ∨ i = 0) :
    RunningStep s (.fault (.unwrittenCell i))

/-- `Arith` at PC is one of the running datapath's steps. -/
theorem arithInPlace_running {s : State} (hat : AtInstruction s) (hl : s.pc.toNat < s.len.toNat) (op : Word)
    (f : Word → Word → Word) : RunningStep s (arithInPlace f (s.tick.fetched op)) := by
  have key := arith_cases f (s.programCell (s.pc.toNat + 1)) (s.programCell (s.pc.toNat + 2))
    (s.programCell (s.pc.toNat + 3)) (s.tick.fetched op)
  simp only [arithInPlace, fetched_programCell, tick_programCell, fetched_pc, tick_pc]
  rcases key with ⟨d, u, he, hd, _, h3, hlt, hsc⟩ | ⟨g, u, he, hsc, hg⟩ | ⟨i, he, hi, hnone⟩
  · rw [he, toOutcome_ok]
    exact .stored d u hat hsc.touched h3 (programCell_some hd).2 hlt
  · rw [he, toOutcome_raise]
    exact .raised g u hat hsc.touched (.inr (.inr (.inr ⟨hl, hg⟩)))
  · rw [he, toOutcome_stop]
    have hi' : i < s.len.toNat := hi
    refine .stuck i ?_ (.inl hi')
    rcases hnone with h | ⟨rfl, h⟩ | ⟨rfl, h⟩ | ⟨rfl, h⟩
    · exact h
    all_goals exact programCell_none hi' h

/-- Every step of a running datapath is one of them. -/
theorem running_step {s : State} (hr : s.status = .running) (hd : s.resetDue = false) : RunningStep s (step s) := by
  by_cases hb : s.mode = .run ∧ s.bound ≤ s.pc.toNat
  · have hs : step s = finish .ended s.tick := by simp [step_running hr hd, running, hb.1, hb.2]
    rw [hs]
    cases h0 : s.mem.read 0 with
    | none => exact (finish_none (s := s.tick) .ended h0) ▸ .stuck 0 h0 (.inr rfl)
    | some v => exact (finish_some (s := s.tick) .ended h0) ▸ .ended v hb.1 hb.2 h0
  have hat : AtInstruction s := ⟨hr, hd, fun hm => Nat.lt_of_not_le fun hle => hb ⟨hm, hle⟩⟩
  rw [step_atInstruction hat]
  by_cases h1 : s.len.toNat < s.pc.toNat
  · exact (stepAtPc_above (s := s.tick) h1) ▸ .raised _ s.tick hat rfl (.inl ⟨rfl, h1⟩)
  by_cases h2 : s.pc.toNat = s.len.toNat
  · exact (stepAtPc_at (s := s.tick) h2) ▸ .raised _ s.tick hat rfl (.inr (.inl ⟨by rw [tick_pc, h2], h2⟩))
  have h3 : s.pc.toNat < s.len.toNat := by omega
  cases hop : s.mem.read s.pc.toNat with
  | none => exact (stepAtPc_none (s := s.tick) h3 hop) ▸ .stuck _ hop (.inl h3)
  | some op =>
    have hp : (s.tick.fetched op).programCell (s.tick.fetched op).pc.toNat = some op :=
      (programCell_of_lt h3).trans hop
    rw [stepAtPc_some (s := s.tick) h3 hop, dispatchSlot_eq hp]
    by_cases o1 : op = 1
    · rw [if_pos o1]
      exact arithInPlace_running hat h3 op aluAdd
    by_cases o2 : op = 2
    · rw [if_neg o1, if_pos o2]
      exact arithInPlace_running hat h3 op aluMul
    by_cases o3 : op = 99
    · rw [if_neg o1, if_neg o2, if_pos o3]
      cases h0 : s.mem.read 0 with
      | none => exact (finish_none (s := s.tick.fetched op) .halted h0) ▸ .stuck 0 h0 (.inr rfl)
      | some v =>
        rw [finish_some (s := s.tick.fetched op) .halted h0]
        exact .halted ((s.tick.fetched op).log { addr := 0, we := false, data := v }) v hat rfl h3 (o3 ▸ hop) h0
    · rw [if_neg o1, if_neg o2, if_neg o3]
      exact .raised _ (s.tick.fetched op) hat rfl (.inr (.inr (.inl ⟨op, rfl, o1, o2, o3, hop, h3⟩)))

/-! ### Runs of several steps -/

theorem run_zero (s : State) : Sys2Proof.core.run 0 s = .next s := rfl

/-- The host's runner, one step unrolled. -/
theorem run_unroll (M : Host.Core) (k : Nat) (s : M.State) :
    M.run (k + 1) s =
      match M.step s with
      | .next t => M.run k t
      | .fault r => .fault r
      | .refused r => .refused r := rfl

theorem run_succ {s t : State} (h : step s = .next t) (k : Nat) :
    Sys2Proof.core.run (k + 1) s = Sys2Proof.core.run k t := by
  have e : Sys2Proof.core.step s = .next t := h
  rw [run_unroll Sys2Proof.core k s, e]

/-! ### Placing a slot -/

/-- A slot that fits at PC is placed there. -/
theorem placeAt_eq {s : State} (h : s.pc.toNat + 4 < 2 ^ 64) : s.placeAt = s.pc.toNat := if_pos h

/-- Placing a slot keeps PC where the slot fits there. -/
theorem placeNext_pc {s : State} (cells : List Word) (h : s.pc.toNat + 4 < 2 ^ 64) : (placeNext cells s).pc = s.pc := by
  apply BitVec.eq_of_toNat_eq
  simp [placeNext, placeAt_eq h]

/-- LEN covers a placed slot. -/
theorem placeNext_len {s : State} (cells : List Word) (h : s.pc.toNat + 4 < 2 ^ 64) :
    s.pc.toNat + 4 ≤ (placeNext cells s).len.toNat := by
  simp only [placeNext, placeAt_eq h]
  split
  · rw [BitVec.toNat_ofNat, Nat.mod_eq_of_lt h]
  · omega

end Sys2Proof.Machine
end

