-- ==== Sys2Proof/Laws/HostPort.lean ====
section
/-!
SUPPORT. What the host's turn can do, said once.
-/

namespace Sys2Proof.Machine

/-- Bits [2:0] of a value, as a number (R16, R22). -/
theorem low3 (v : Word) : (v.extractLsb' 0 3).toNat = v.toNat % 8 := by
  simp [BitVec.extractLsb'_toNat]

/-- R22: which command a write to CMD is. -/
theorem writeCmd_eq (v : Word) (s : State) :
    writeCmd v s =
      match v.toNat % 8 with
      | 1 => if s.status = .idle then startCommand s else s
      | 2 => if s.status = .idle then startNvCommand s else s
      | 3 => if s.status = .idle then stepCommand s else s
      | 4 => if s.status = .running then s else clearCommand s
      | _ => s := by
  rw [← low3]
  rfl

theorem lenIllegal_iff {s : State} : s.lenIllegal = true ↔ s.len = 0 ∨ s.memDepth < s.len.toNat := by
  simp [State.lenIllegal]

/-- A length the launch commands take is a legal one (R12, R93). -/
theorem lenLegal_of {s : State} (h : ¬ s.lenIllegal = true) : LenLegal s := by
  rw [lenIllegal_iff] at h
  have h0 : s.len.toNat ≠ 0 := fun hz => h (.inl (BitVec.eq_of_toNat_eq (by simpa using hz)))
  exact ⟨by omega, by omega⟩

theorem not_lenLegal_of {s : State} (h : s.lenIllegal = true) : ¬ LenLegal s := by
  rw [lenIllegal_iff] at h
  rintro ⟨h1, h2⟩
  rcases h with h | h
  · rw [h] at h1
    simp at h1
  · omega

/-- The step that serves a host action. -/
theorem step_serving {s : State} {act : HostAction} {rest : List HostAction} (h : AtHostAction s act rest) :
    step s = .next (serve act (s.serving rest)) := by
  obtain ⟨hr, hd, hh⟩ := h
  rw [step_host hr hd, hostTurn]
  simp only [tick_host, hh]
  rfl

/-! ### Cells as the host port finds them -/

/-- The content of a cell depends on the memory and the number of resets alone. -/
theorem hostCell_congr {s t : State} (hm : t.mem = s.mem) (hr : t.resetCount = s.resetCount) (i : Nat) :
    t.hostCell i = s.hostCell i := by rw [State.hostCell, hm, hr, State.hostCell]

/-- A cell that was written holds what was written. -/
theorem hostCell_of_read {s : State} {i : Nat} {v : Word} (h : s.mem.read i = some v) : s.hostCell i = v := by
  rw [State.hostCell, h, Option.getD_some]

/-- A write changes the content of its own cell alone. -/
theorem hostCell_of_write {s t : State} {i j : Nat} {v : Word} (hm : t.mem = s.mem.write i v)
    (hr : t.resetCount = s.resetCount) (hj : j ≠ i) : t.hostCell j = s.hostCell j := by
  rw [State.hostCell, hm, hr, read_write_other _ _ hj, State.hostCell]

/-- A host read of a cell that exists changes nothing but the data the port returns (R42). -/
theorem hostReadCell_below {s : State} {i : Nat} (h : i < s.memDepth) :
    hostReadCell i s = { s with hostData := s.hostCell i } := if_pos h

/-! ### The commands -/

theorem startCommand_cases (s : State) :
    (s.lenIllegal = true ∧ startCommand s = takeFault (.invalidLength s.len) (clearRecord s)) ∨
    (s.lenIllegal = false ∧ startCommand s = beginRun (clearRecord s)) := by
  have hc : (clearRecord s).lenIllegal = s.lenIllegal := rfl
  cases h : s.lenIllegal <;> simp [startCommand, hc, h]

theorem startNvCommand_cases (s : State) :
    (s.lenIllegal = true ∧ startNvCommand s = takeFault (.invalidLength s.len) (clearRecord s)) ∨
    (s.lenIllegal = false ∧ s.len.toNat ≤ 4 ∧
      startNvCommand s = takeFault (.programPosition s.len.toNat) (clearRecord s)) ∨
    (s.lenIllegal = false ∧ 4 < s.len.toNat ∧
      startNvCommand s = beginRun (memWrite 2 s.verb (memWrite 1 s.noun (clearRecord s)))) := by
  have hc : (clearRecord s).lenIllegal = s.lenIllegal := rfl
  cases h : s.lenIllegal with
  | true => simp [startNvCommand, hc, h]
  | false =>
    by_cases h4 : s.len.toNat ≤ 4
    · exact .inr (.inl ⟨rfl, h4, by simp [startNvCommand, hc, h, h4]⟩)
    · exact .inr (.inr ⟨rfl, by omega, by simp [startNvCommand, hc, h, h4, Config.nounCell, Config.verbCell]⟩)

theorem stepCommand_cases (s : State) :
    (s.lenIllegal = true ∧ stepCommand s = takeFault (.invalidLength s.len) (clearRecord s)) ∨
    (s.lenIllegal = false ∧ stepCommand s = { clearRecord s with status := .running, mode := .single }) := by
  have hc : (clearRecord s).lenIllegal = s.lenIllegal := rfl
  cases h : s.lenIllegal <;> simp [stepCommand, hc, h]

/-! ### The turn -/

/-- The states a host action can lead to, from a block that is not running: itself but for what the host port reads or
the host may write, or the result of a command. -/
inductive Served (s : State) : State → Prop where
  | data (x : Word) (n : Nat) : Served s { s with hostData := x, freeCount := n }
  | same : Served s s
  | cell (i : Nat) (v : Word) (hi : s.status = .idle) (hb : i < s.memDepth) :
    Served s { s with mem := s.mem.write i v }
  | len (v : Word) (hi : s.status = .idle) : Served s { s with len := v }
  | pc (v : Word) (hi : s.status = .idle) : Served s { s with pc := v }
  | noun (v : Word) (hi : s.status = .idle) : Served s { s with noun := v }
  | verb (v : Word) (hi : s.status = .idle) : Served s { s with verb := v }
  | start (hi : s.status = .idle) : Served s (startCommand s)
  | startNv (hi : s.status = .idle) : Served s (startNvCommand s)
  | step (hi : s.status = .idle) : Served s (stepCommand s)
  | clear : Served s (clearCommand s)

theorem serve_served (act : HostAction) {s : State} (hr : s.status ≠ .running) : Served s (serve act s) := by
  cases act with
  | readReg reg => exact .data _ _
  | readCell i =>
    simp only [serve, hostReadCell]
    split
    · exact .data _ _
    · exact .data _ _
  | writeCell i v =>
    simp only [serve, hostWriteCell]
    split
    · exact .cell i v (And.left ‹_›) (And.right ‹_›)
    · exact .same
  | writeReg reg v =>
    cases reg with
    | cmd =>
      simp only [serve, writeReg, writeCmd_eq]
      split
      · split
        · exact .start ‹_›
        · exact .same
      · split
        · exact .startNv ‹_›
        · exact .same
      · split
        · exact .step ‹_›
        · exact .same
      · rw [if_neg hr]
        exact .clear
      · exact .same
    | len | pc | noun | verb =>
      simp only [serve, writeReg]
      split
      · first
        | exact .len v ‹_›
        | exact .pc v ‹_›
        | exact .noun v ‹_›
        | exact .verb v ‹_›
      · exact .same
    | status | result | errCode | errInfo0 | errInfo1 => exact .same

/-- A block that is not running, no reset being due: nothing happens, or one host action is served. -/
theorem host_step {s : State} (hr : s.status ≠ .running) (hd : s.resetDue = false) :
    (s.host = [] ∧ step s = .next s.tick) ∨
    ∃ act rest t, s.host = act :: rest ∧ t = serve act (s.serving rest) ∧ Served (s.serving rest) t ∧
      step s = .next t := by
  cases hh : s.host with
  | nil =>
    left
    rw [step_host hr hd, hostTurn]
    simp only [tick_host, hh, and_self]
  | cons act rest =>
    right
    exact ⟨act, rest, _, rfl, rfl, serve_served act (s := s.serving rest) hr, step_serving ⟨hr, hd, hh⟩⟩

end Sys2Proof.Machine
end

