-- ==== Sys2Proof/Laws/PerInstr.lean ====
section
/-!
SUPPORT. A statement for every instruction as syntax: its slot is four cells, whatever its operands (R53, R61).
-/

namespace Sys2Proof.Laws.SlotLength

/-- The instruction is well formed (R60) and its slot has STRIDE cells (R53). -/
def Statement (i : Instr) : Prop := i.wf = true ∧ (encode i).length = Config.stride

theorem add (a b d : Word) : Statement (.add a b d) := ⟨rfl, rfl⟩

theorem mul (a b d : Word) : Statement (.mul a b d) := ⟨rfl, rfl⟩

theorem hlt : Statement .hlt := ⟨rfl, rfl⟩

end Sys2Proof.Laws.SlotLength
end

