-- ==== Sys2Proof/Tests/Slice0.lean ====
section
/-!
SUPPORT. Tests. Expected values are the spec's: the tables of 30_encoding.md and the vectors of 95_test_vectors.md, by their
names there (S…, V-…). Then, for every obligation with hypotheses, a witness that meets them, clause by clause.
-/

namespace Sys2Proof.Tests

open Sys2Proof Sys2Proof.Machine

/-! ### Well-formedness: each check refuses an ill-formed term -/

theorem test_empty_image_refused : imageWf 8 [] = false := by decide
theorem test_too_long_image_refused : imageWf 3 [1, 0, 0, 0] = false ∧ imageWf 4 [1, 0, 0, 0] = true := by decide
theorem test_depth_zero_refused : depthLegal 0 = false ∧ depthLegal 1 = true := by decide
theorem test_depth_above_limit_refused :
    depthLegal 9223372036854775805 = false ∧ depthLegal 9223372036854775804 = true := by decide
theorem test_unaligned_slot_refused : slotAligned 6 = false ∧ slotAligned 8 = true := by decide
theorem test_any_field_is_well_formed : (Instr.add (-1) 9223372036854775807 0).wf = true := by decide

/-! ### Decoding: words written out from R54 and R57 -/

/-- `[1, 9, 10, 3]` (S1's first slot), as cells and as the 256-bit number of R54. -/
theorem test_decode_add :
    decode [0x0000000000000001, 9, 10, 3] = .instr (.add 9 10 3) ∧
    decodeTableWord 256 0x00000000000000010000000000000009000000000000000A0000000000000003 = some (.add 9 10 3) := by
  decide

/-- `[2, 3, 11, -1]`: the destination field is signed (R56). -/
theorem test_decode_mul :
    decode [0x0000000000000002, 3, 11, 0xFFFFFFFFFFFFFFFF] = .instr (.mul 3 11 (-1)) ∧
    decodeTableWord 256 0x00000000000000020000000000000003000000000000000BFFFFFFFFFFFFFFFF = some (.mul 3 11 (-1)) := by
  decide

/-- `[99]` is a HLT, and so is `[99, 7, -3, 1000]` (S8, V-O12). -/
theorem test_decode_hlt :
    decode [0x0000000000000063] = .instr .hlt ∧ decode [99, 7, -3, 1000] = .instr .hlt ∧
    decodeTableWord 256 0x0000000000000063000000000000000000000000000000000000000000000000 = some .hlt := by decide

/-- V-O4 to V-O11: every other value is illegal, also one that differs from 1 in its high bits only. -/
theorem test_decode_unknown :
    decode [0, 0, 0, 0] = .error (.unknownOpcode 0) ∧ decode [98] = .error (.unknownOpcode 98) ∧
    decode [100] = .error (.unknownOpcode 100) ∧ decode [-99] = .error (.unknownOpcode (-99)) ∧
    decode [4294967297, 0, 0, 0] = .error (.unknownOpcode 4294967297) ∧
    decode [1001, 0, 0, 0] = .error (.unknownOpcode 1001) := by decide

/-- A slot that is not there whole is no ADD and no MUL, and no cell is no instruction. -/
theorem test_decode_incomplete :
    decode [1, 9, 10] = .error .addFieldsMissing ∧ decode [2] = .error .mulFieldsMissing ∧
    decode [] = .error .noOpcodeCell := by decide

/-- The listing of S1 gives S1's image (R64, R65). -/
theorem test_assemble :
    assemble [.instr (.add 9 10 3), .instr (.mul 3 11 0), .hltData 30 40 50] =
      [1, 9, 10, 3, 2, 3, 11, 0, 99, 30, 40, 50] := by decide

/-! ### States -/

/-- The cells from index `i` on. -/
def image (i : Nat) : List Word → Memory
  | [] => []
  | c :: cs => (i, c) :: image (i + 1) cs

/-- IDLE, with a program loaded. -/
def loaded (cells : List Word) : State :=
  { State.reset with mem := image 0 cells, len := BitVec.ofNat 64 cells.length }

/-- A run in progress at `pc`. -/
def inRun (cells : List Word) (pc : Word) : State := { loaded cells with pc := pc, status := .running }

/-- A single step in progress at `pc`. -/
def inStep (cells : List Word) (pc : Word) : State := { inRun cells pc with mode := .single }

/-- IDLE with a program loaded and one action of the host to come. -/
def withHost (cells : List Word) (act : HostAction) : State := { loaded cells with host := [act] }

/-- A next state with the property `p`. -/
def nextWith (o : Host.Outcome State Fault Refusal) (p : State → Bool) : Bool :=
  match o with
  | .next t => p t
  | .fault _ => false
  | .refused _ => false

theorem exists_of_nextWith {o : Host.Outcome State Fault Refusal} {p : State → Bool} (h : nextWith o p = true) :
    ∃ t, o = .next t ∧ p t = true := by
  cases o with
  | next t => exact ⟨t, rfl, h⟩
  | fault f => cases h
  | refused r => cases h

/-- A fault record, PC and memory. -/
def faulted (code : ErrCode) (i0 i1 : Word) (pc : Word) (cells : List Word) (t : State) : Bool :=
  decide (t.status = .fault ∧ t.errCode = code ∧ t.errInfo0 = i0 ∧ t.errInfo1 = i1 ∧ t.pc = pc ∧ t.mem = image 0 cells)

/-! ### Single steps -/

/-- S6. -/
theorem test_step_add : nextWith (step (inStep [1, 2, 2, 0] 0)) (fun t =>
    decide (t.mem = image 0 [4, 2, 2, 0] ∧ t.status = .idle ∧ t.pc = 4)) = true := by decide

/-- V-ADD4: I64_MAX + 1. -/
theorem test_step_add_wraps : nextWith (step (inStep [1, 4, 5, 6, 9223372036854775807, 1, 0] 0)) (fun t =>
    decide (t.mem.read 6 = some (-9223372036854775808) ∧ t.pc = 4)) = true := by decide

/-- S7. -/
theorem test_step_mul : nextWith (step (inStep [2, 1, 0, 3] 0)) (fun t =>
    decide (t.mem = image 0 [2, 1, 0, 2] ∧ t.status = .idle ∧ t.pc = 4)) = true := by decide

/-- V-MUL11: an exact product outside the format. -/
theorem test_step_mul_wraps : nextWith (step (inStep [2, 4, 5, 6, 3037000500, 3037000500, 0] 0)) (fun t =>
    decide (t.mem.read 6 = some (-9223372036709301616) ∧ t.pc = 4)) = true := by decide

/-- S8. -/
theorem test_step_hlt : nextWith (step (inStep [99] 0)) (fun t =>
    decide (t.mem = image 0 [99] ∧ t.status = .halted ∧ t.result = 99 ∧ t.pc = 0)) = true := by decide

/-- V-O12: the operand cells of a HLT do not matter. -/
theorem test_run_hlt : nextWith (step (inRun [99, 7, -3, 1000, 5] 0)) (fun t =>
    decide (t.status = .halted ∧ t.result = 99 ∧ t.pc = 0 ∧ t.reads = 2)) = true := by decide

/-! ### From reset -/

/-- A slot of each row of the opcode table runs as the first instruction after reset: ADD 0, 0, 0 doubles the opcode cell, MUL
0, 0, 0 squares it, HLT halts (V-O1, V-O2, V-O3). -/
theorem test_first_instruction_after_reset :
    nextWith (step (State.reset.withFetchWord 256
      0x0000000000000001000000000000000000000000000000000000000000000000)) (fun t =>
        decide (t.mem.read 0 = some 2 ∧ t.pc = 4)) = true ∧
    nextWith (step (State.reset.withFetchWord 256
      0x0000000000000002000000000000000000000000000000000000000000000000)) (fun t =>
        decide (t.mem.read 0 = some 4 ∧ t.pc = 4)) = true ∧
    nextWith (step (State.reset.withFetchWord 256
      0x0000000000000063000000000000000000000000000000000000000000000000)) (fun t =>
        decide (t.status = .halted ∧ t.result = 99)) = true := by decide

/-- With nothing to do, the block after reset stays IDLE. -/
theorem test_reset_idles : nextWith (step State.reset) (fun t => decide (t = State.reset)) = true := by decide

/-- A launch before any load is `InvalidLength(0)` (R28). -/
theorem test_start_without_load :
    nextWith (step { State.reset with host := [.writeReg .cmd 1] }) (faulted .invalidLength 0 0 0 []) = true := by decide

/-- V-N2: START_NV refuses four cells and writes none. -/
theorem test_start_nv_refuses_four :
    nextWith (step { withHost [1, 0, 0, 0] (.writeReg .cmd 2) with noun := 5, verb := 6 })
      (faulted .programPosition 4 0 0 [1, 0, 0, 0]) = true := by decide

/-- V-N7's first half: the smallest length START_NV takes; cells 1 and 2 are written. -/
theorem test_start_nv_writes :
    nextWith (step { withHost [1, 0, 0, 0, 99] (.writeReg .cmd 2) with noun := 5, verb := 6 }) (fun t =>
      decide (t.mem = image 0 [1, 5, 6, 0, 99] ∧ t.status = .running ∧ t.writes = 2)) = true := by decide

/-- V-R1: a program shorter than a slot executes nothing. -/
theorem test_short_program_ends : nextWith (step (inRun [99] 0)) (fun t =>
    decide (t.status = .ended ∧ t.result = 99 ∧ t.pc = 0)) = true := by decide

/-! ### Witnesses: states and operands that meet the hypotheses of each obligation -/

/-- A running state with nothing recorded meets the invariant. -/
theorem inv_of_running {s : State} (hm : s.mem.Wf) (hb : ∀ x ∈ s.mem, x.1 < s.memDepth)
    (hd : Config.minDepth ≤ s.memDepth ∧ s.memDepth ≤ Config.maxDepth) (hl : LenLegal s)
    (hr : s.status = .running) (he : s.errCode = .none ∧ s.errInfo0 = 0 ∧ s.errInfo1 = 0)
    (hp : s.mode = .run → s.pc.toNat % 4 = 0 ∧ s.pc.toNat ≤ s.bound) : Inv s where
  memWf := hm
  memBelow := hb
  depthLegal := hd
  lenLegal := fun _ => hl
  pcInRun := fun _ => hp
  record := by
    unfold RecordSound
    rw [he.1]
    exact ⟨by rw [hr]; decide, he.2⟩
  resultValid := fun h => by rcases h with h | h <;> rw [hr] at h <;> cases h
  haltedAtHlt := fun h => by rw [hr] at h; cases h
  endedAtBound := fun h => by rw [hr] at h; cases h

theorem witness_StepRunsDecodedInstruction :
    (AtInstruction (inRun [1, 2, 2, 0] 0) ∧ decode (inRun [1, 2, 2, 0] 0).slotCells = .instr (.add 2 2 0)) ∧
    (AtInstruction (inStep [7, 99] 1) ∧ decode (inStep [7, 99] 1).slotCells = .instr .hlt) := by
  unfold AtInstruction; decide

/-- PC at LEN + 1, at LEN, at the last cell with nothing written there, and there with an illegal opcode. -/
theorem witness_FetchFaultsInOrder :
    (AtInstruction (inStep [1, 0, 0, 0, 99] 6) ∧ (inStep [1, 0, 0, 0, 99] 6).len.toNat < 6) ∧
    (AtInstruction (inStep [1, 0, 0, 0, 99] 5) ∧ (5 : Nat) = (inStep [1, 0, 0, 0, 99] 5).len.toNat) ∧
    (AtInstruction { inStep [1, 0, 0, 0, 99] 4 with mem := [] } ∧
      ({ inStep [1, 0, 0, 0, 99] 4 with mem := [] } : State).mem.read 4 = none) ∧
    (AtInstruction (inStep [1, 0, 0, 0, 100] 4) ∧ (inStep [1, 0, 0, 0, 100] 4).mem.read 4 = some 100) := by
  unfold AtInstruction; decide

/-- V-S3, V-S5 and V-S6. -/
theorem test_fetch_faults :
    nextWith (step (inStep [1, 0, 0, 0, 99] 5)) (faulted .pastEnd 5 0 5 [1, 0, 0, 0, 99]) = true ∧
    nextWith (step (inStep [1, 0, 0, 0, 99] 18446744073709551615))
      (faulted .programPosition 18446744073709551615 0 18446744073709551615 [1, 0, 0, 0, 99]) = true ∧
    nextWith (step (inStep [1, 0, 0, 0, 99] 1)) (faulted .unknownOpcode 0 1 1 [1, 0, 0, 0, 99]) = true := by decide

/-- V-S11 and V-S10: the destination field at LEN + 1 and at LEN. -/
theorem witness_MissingDestinationFieldFaults :
    (AtInstruction (inStep [9, 9, 9, 1, 0] 3) ∧ (inStep [9, 9, 9, 1, 0] 3).len.toNat < 3 + 3 ∧
      (inStep [9, 9, 9, 1, 0] 3).mem.read 3 = some 1) ∧
    (AtInstruction (inStep [9, 9, 2, 0, 0] 2) ∧ 2 + 3 = (inStep [9, 9, 2, 0, 0] 2).len.toNat ∧
      (inStep [9, 9, 2, 0, 0] 2).mem.read 2 = some 2) := by
  unfold AtInstruction; decide

theorem test_missing_destination_field :
    nextWith (step (inStep [9, 9, 9, 1, 0] 3)) (faulted .programPosition 6 0 3 [9, 9, 9, 1, 0]) = true ∧
    nextWith (step (inStep [9, 9, 1, 0, 0] 2)) (faulted .pastEnd 5 0 2 [9, 9, 1, 0, 0]) = true := by decide

theorem witness_WholeOpcodeCellSelects :
    (4294967297 : Word) ≠ 1 ∧ (4294967297 : Word) ≠ 2 ∧ (4294967297 : Word) ≠ 99 := by decide

theorem witness_EncodeDecodeAgree :
    (encodeTableWord (.mul 3 11 (-1)) < 2 ^ 256 ∧
      decodeTableWord 256 (encodeTableWord (.mul 3 11 (-1))) = some (.mul 3 11 (-1))) ∧
    decodeTableWord 256 (99 * 2 ^ 192 + 7) = some .hlt := by decide

/-- The last PC at which a slot fits. -/
theorem witness_StoredSlotRunsNext :
    ({ State.reset with pc := 18446744073709551611 } : State).pc.toNat + 4 < 2 ^ 64 := by decide

theorem witness_ReadCellTestsStrictly :
    (6 > (loaded [1, 0, 0, 0, 99]).len.toNat) ∧ (5 = (loaded [1, 0, 0, 0, 99]).len.toNat) ∧
    (4 < (loaded [1, 0, 0, 0, 99]).len.toNat ∧ (loaded [1, 0, 0, 0, 99]).mem.read 4 = some 99) := by decide

theorem witness_CheckDestAdmitsZeroToLen :
    (-1 : Word).toInt < 0 ∧ (5 : Word).toInt > ((loaded [1, 0, 0, 0]).len.toNat : Int) ∧
    0 ≤ (0 : Word).toInt ∧ (4 : Word).toInt ≤ ((loaded [1, 0, 0, 0]).len.toNat : Int) := by decide

/-- The field past LEN, at LEN, and there with an address of -1, of LEN, of 0 and of LEN - 1. -/
theorem witness_ReadOperandDereferences :
    (4 + 1 > (inStep [1, 4, -1, 0] 4).len.toNat) ∧ (2 + 2 = (inStep [1, 4, -1, 0] 2).len.toNat) ∧
    (0 + 2 < (inStep [1, 4, -1, 0] 0).len.toNat ∧ (-1 : Word).toInt < 0) ∧
    (0 + 1 < (inStep [1, 4, -1, 0] 0).len.toNat ∧ (4 : Word).toInt ≥ ((inStep [1, 4, -1, 0] 0).len.toNat : Int)) ∧
    (0 + 1 < (inStep [1, 3, 0, 0] 0).len.toNat ∧ (3 : Word).toInt < ((inStep [1, 3, 0, 0] 0).len.toNat : Int) ∧
      (inStep [1, 3, 0, 0] 0).mem.read 3 = some 0) ∧
    (0 + 2 < (inStep [1, 3, 0, 0] 0).len.toNat ∧ 0 ≤ (0 : Word).toInt ∧
      (inStep [1, 3, 0, 0] 0).mem.read 0 = some 1) := by decide

theorem witness_WriteCellFaultsAtLen :
    0 ≤ (4 : Word).toInt ∧ (4 : Word).toInt ≤ ((loaded [1, 0, 0, 4]).len.toNat : Int) ∧
    (4 : Word).toNat = (loaded [1, 0, 0, 4]).len.toNat ∧ (3 : Word).toNat < (loaded [1, 0, 0, 4]).len.toNat ∧
    0 ≤ (3 : Word).toInt := by decide

/-- Operands and destination at the ends of their ranges: 0 and LEN - 1. -/
theorem witness_AddCompletes :
    (inRun [1, 0, 3, 3] 0).pc.toNat + 3 < (inRun [1, 0, 3, 3] 0).len.toNat ∧ 0 ≤ (0 : Word).toInt ∧
    (3 : Word).toInt < ((inRun [1, 0, 3, 3] 0).len.toNat : Int) ∧ 0 ≤ (3 : Word).toInt ∧
    (inRun [1, 0, 3, 3] 0).mem.read (0 : Word).toNat = some 1 ∧
    (inRun [1, 0, 3, 3] 0).mem.read (3 : Word).toNat = some 3 := by decide

theorem witness_MulCompletes :
    (inStep [7, 2, 0, 4, 0] 1).pc.toNat + 3 < (inStep [7, 2, 0, 4, 0] 1).len.toNat ∧ 0 ≤ (0 : Word).toInt ∧
    (4 : Word).toInt < ((inStep [7, 2, 0, 4, 0] 1).len.toNat : Int) ∧ 0 ≤ (4 : Word).toInt ∧
    (inStep [7, 2, 0, 4, 0] 1).mem.read (0 : Word).toNat = some 7 ∧
    (inStep [7, 2, 0, 4, 0] 1).mem.read (4 : Word).toNat = some 0 := by decide

/-- Each branch in turn, at its boundary: the field past LEN and at LEN (V-S11, V-S10), the destination (V-D9, V-D4), the
operands (V-A1, V-A3, V-A6, V-A4), the write at LEN (V-D5), and none. -/
theorem test_arith_faults_in_order :
    nextWith (exec (.add 0 0 0) (inStep [9, 9, 9, 1, 0] 3)) (fun t => decide (t.errCode = .programPosition)) = true ∧
    nextWith (exec (.add 0 0 0) (inStep [9, 9, 1, 0, 0] 2)) (fun t => decide (t.errCode = .pastEnd)) = true ∧
    nextWith (exec (.mul 0 0 (-9223372036854775808)) (inRun [2, 0, 0, -9223372036854775808] 0))
      (faulted .modifyPosition (-9223372036854775808) 0 0 [2, 0, 0, -9223372036854775808]) = true ∧
    nextWith (exec (.add 4 4 6) (inRun [1, 4, 4, 6, 99] 0)) (faulted .modifyPosition 6 0 0 [1, 4, 4, 6, 99]) = true ∧
    nextWith (exec (.add (-1) 0 0) (inRun [1, -1, 0, 0] 0)) (faulted .argumentPosition 1 (-1) 0 [1, -1, 0, 0]) = true ∧
    nextWith (exec (.add 4 (-7) 0) (inRun [1, 4, -7, 0] 0)) (faulted .argumentPosition 1 4 0 [1, 4, -7, 0]) = true ∧
    nextWith (exec (.add 0 4 0) (inRun [1, 0, 4, 0] 0)) (faulted .argumentPosition 2 4 0 [1, 0, 4, 0]) = true ∧
    nextWith (exec (.add 0 0 4) (inRun [1, 0, 0, 4] 0)) (faulted .pastEnd 4 0 0 [1, 0, 0, 4]) = true ∧
    nextWith (exec (.add 0 0 3) (inRun [1, 0, 0, 3] 0)) (fun t => decide (t.errCode = .none)) = true := by decide

/-- An operand cell that nothing has written: the model's stop, before the second operand's check. -/
theorem test_unwritten_operand :
    exec (.add 4 9 0) { inRun [1, 4, 9, 0, 0] 0 with mem := image 0 [1, 4, 9, 0] } = .fault (.unwrittenCell 4) ∧
    exec (.mul 0 4 0) { inRun [2, 0, 4, 0, 0] 0 with mem := image 0 [2, 0, 4, 0] } = .fault (.unwrittenCell 4) :=
  ⟨rfl, rfl⟩

/-- A step that stores, and one that faults. -/
theorem witness_ArithFrame :
    (∃ t, exec (.add 2 2 0) (inRun [1, 2, 2, 0] 0) = .next t ∧ decide (t.pc = 4) = true) ∧
    (∃ t, exec (.mul 0 0 4) (inRun [2, 0, 0, 4] 0) = .next t ∧ decide (t.status = .fault) = true) :=
  ⟨exists_of_nextWith (by decide), exists_of_nextWith (by decide)⟩

theorem witness_AdditionWraps :
    (9223372036854775807 : Word).toInt + (1 : Word).toInt > i64Max ∧
    (-9223372036854775808 : Word).toInt + (-1 : Word).toInt < i64Min ∧
    i64Min ≤ (-9223372036854775808 : Word).toInt + (0 : Word).toInt ∧
    (9223372036854775807 : Word).toInt + (0 : Word).toInt ≤ i64Max := by decide

/-- V-MUL9 and V-MUL10: products that just fit. -/
theorem witness_MultiplicationWraps :
    i64Min ≤ (4294967296 : Word).toInt * (-2147483648 : Word).toInt ∧
    (4294967296 : Word).toInt * (-2147483648 : Word).toInt ≤ i64Max ∧
    (3037000499 : Word).toInt * (3037000499 : Word).toInt ≤ i64Max := by decide

/-- S5's first step: the next slot's opcode is overwritten. -/
theorem witness_StoreSeenByNextFetch :
    ∃ t, exec (.add 1 1 4) (inRun [1, 1, 1, 4, 99, 5, 6, 0, 99] 0) = .next t ∧
      decide (t.status ≠ .fault ∧ t.mem.read 4 = some 2) = true := exists_of_nextWith (by decide)

theorem witness_HltCompletes : (inRun [99, 0, 0, 0] 0).mem.read 0 = some 99 := by decide

theorem witness_HltFrame :
    ∃ t, exec .hlt (inStep [7, 99] 1) = .next t ∧ decide (t.result = 7) = true := exists_of_nextWith (by decide)

/-- V-R1: BOUND is 0. And PC = BOUND after S2's one step. -/
theorem witness_RunEndsAtBound :
    ((inRun [99] 0).status = .running ∧ (inRun [99] 0).resetDue = false ∧ (inRun [99] 0).mode = .run ∧
      (inRun [99] 0).pc.toNat ≥ (inRun [99] 0).len.toNat - (inRun [99] 0).len.toNat % 4 ∧
      (inRun [99] 0).mem.read 0 = some 99) ∧
    ((inRun [2, 0, 0, 0, 99] 4).pc.toNat ≥ (inRun [2, 0, 0, 0, 99] 4).len.toNat -
        (inRun [2, 0, 0, 0, 99] 4).len.toNat % 4 ∧ (inRun [2, 0, 0, 0, 99] 4).mem.read 0 = some 2) := by decide

/-- The run of V-D5, at its start. -/
theorem inv_of_vd5 : Inv (inRun [1, 0, 0, 4] 0) :=
  inv_of_running (by decide) (by decide) (by decide) (by unfold LenLegal; decide) rfl ⟨rfl, rfl, rfl⟩ (fun _ => by decide)

theorem witness_RunFetchesStayInside :
    Inv (inRun [1, 0, 0, 4] 0) ∧ AtInstruction (inRun [1, 0, 0, 4] 0) ∧ (inRun [1, 0, 0, 4] 0).mode = .run ∧
    ∃ t, step (inRun [1, 0, 0, 4] 0) = .next t ∧ decide (t.errCode = .pastEnd) = true :=
  ⟨inv_of_vd5, by unfold AtInstruction; decide, rfl, exists_of_nextWith (by decide)⟩

theorem witness_EveryRunEnds :
    Inv (inRun [1, 0, 0, 4] 0) ∧ Loaded (inRun [1, 0, 0, 4] 0) ∧ (inRun [1, 0, 0, 4] 0).status = .running ∧
    (inRun [1, 0, 0, 4] 0).resets = [] := ⟨inv_of_vd5, by unfold Loaded; decide, rfl, rfl⟩

theorem witness_OneCellPerStep :
    (inRun [1, 2, 2, 0] 0).status = .running ∧ (inRun [1, 2, 2, 0] 0).resetDue = false ∧
    ∃ t, step (inRun [1, 2, 2, 0] 0) = .next t ∧ decide (t.mem ≠ (inRun [1, 2, 2, 0] 0).mem) = true :=
  ⟨rfl, rfl, exists_of_nextWith (by decide)⟩

/-- R129, count by count: a completed ADD, then MUL and ADD that fault at the destination check, operand 1, operand 2 and the
write; a HLT with the read at the end of its run; an unknown opcode. -/
theorem test_transaction_counts :
    nextWith (step (inRun [1, 2, 2, 0] 0)) (fun t => decide (t.reads = 6 ∧ t.writes = 1)) = true ∧
    nextWith (step (inRun [2, 5, 10, -1] 0)) (fun t => decide (t.reads = 2 ∧ t.writes = 0)) = true ∧
    nextWith (step (inRun [1, 4, 0, 0] 0)) (fun t => decide (t.reads = 3 ∧ t.writes = 0)) = true ∧
    nextWith (step (inRun [1, 0, 4, 0] 0)) (fun t => decide (t.reads = 5 ∧ t.writes = 0)) = true ∧
    nextWith (step (inRun [1, 0, 0, 4] 0)) (fun t => decide (t.reads = 6 ∧ t.writes = 0)) = true ∧
    nextWith (step (inRun [99, 0, 0, 0] 0)) (fun t => decide (t.reads = 1 + 1 ∧ t.writes = 0)) = true ∧
    nextWith (step (inRun [3, 5, 10, 2] 0)) (fun t => decide (t.reads = 1 ∧ t.writes = 0)) = true := by decide

theorem witness_TransactionCounts :
    AtInstruction (inRun [1, 2, 2, 0] 0) ∧ decode (inRun [1, 2, 2, 0] 0).slotCells = .instr (.add 2 2 0) ∧
    AtInstruction (inRun [99, 0, 0, 0] 0) ∧ decode (inRun [99, 0, 0, 0] 0).slotCells = .instr .hlt ∧
    AtInstruction (inRun [3, 5, 10, 2] 0) ∧
    decode (inRun [3, 5, 10, 2] 0).slotCells = .error (.unknownOpcode 3) := by unfold AtInstruction; decide

/-- Each end of R83's table, and a step that goes on. -/
theorem witness_PcAfterEachEnd :
    (∃ t, step (inRun [1, 2, 2, 0] 0) = .next t ∧ decide (t.status = .running) = true) ∧
    (∃ t, step (inStep [1, 2, 2, 0] 0) = .next t ∧ decide (t.status = .idle) = true) ∧
    (∃ t, step (inRun [99, 0, 0, 0] 0) = .next t ∧ decide (t.status = .halted) = true) ∧
    (∃ t, step (inRun [99] 0) = .next t ∧ decide (t.status = .ended) = true) ∧
    (∃ t, step (inRun [3, 5, 10, 2] 0) = .next t ∧ decide (t.status = .fault) = true) ∧
    (∃ t, step { withHost [] (.writeReg .cmd 3) with pc := 8 } = .next t ∧
      decide (t.status = .fault ∧ t.pc = 8) = true) :=
  ⟨exists_of_nextWith (by decide), exists_of_nextWith (by decide), exists_of_nextWith (by decide),
    exists_of_nextWith (by decide), exists_of_nextWith (by decide), exists_of_nextWith (by decide)⟩

/-- A halted block whose host clears it, with what a run left in the registers. -/
def clearing : State :=
  { withHost [99, 0, 0, 0] (.writeReg .cmd 4) with status := .halted, result := 99, pc := 0 }

/-- RESULT written, cleared by CLEAR, cleared by a reset, and kept by a fault. -/
theorem witness_ResultWrittenAtSuccessAlone :
    (∃ t, step (inRun [99, 0, 0, 0] 0) = .next t ∧ decide (t.status = .halted) = true) ∧
    (∃ t, step clearing = .next t ∧ decide (t.result = 0) = true) ∧
    (∃ t, step { clearing with resets := [0] } = .next t ∧ decide (t.result = 0) = true) ∧
    (∃ t, step { inRun [3, 5, 10, 2] 0 with result := 7 } = .next t ∧ decide (t.result = 7) = true) :=
  ⟨exists_of_nextWith (by decide), exists_of_nextWith (by decide), exists_of_nextWith (by decide),
    exists_of_nextWith (by decide)⟩

/-- One for each STATUS. -/
theorem witness_StatusMovesAsTabled :
    (∃ t, step (withHost [99, 0, 0, 0] (.writeReg .cmd 1)) = .next t ∧ decide (t.status = .running) = true) ∧
    (∃ t, step (inRun [99, 0, 0, 0] 0) = .next t ∧ decide (t.status = .halted) = true) ∧
    (∃ t, step clearing = .next t ∧ decide (t.status = .idle) = true) ∧
    (∃ t, step { clearing with status := .ended } = .next t ∧ decide (t.status = .idle) = true) ∧
    (∃ t, step { clearing with status := .fault } = .next t ∧ decide (t.status = .idle) = true) :=
  ⟨exists_of_nextWith (by decide), exists_of_nextWith (by decide), exists_of_nextWith (by decide),
    exists_of_nextWith (by decide), exists_of_nextWith (by decide)⟩

theorem witness_HostRegistersWrittenByHostAlone :
    (∃ t, step (withHost [] (.writeReg .len 5)) = .next t ∧ decide (t.len ≠ 0) = true) ∧
    (∃ t, step (withHost [] (.writeReg .noun (-4))) = .next t ∧ decide (t.noun ≠ 0) = true) ∧
    (∃ t, step (withHost [] (.writeReg .verb 123456789012)) = .next t ∧ decide (t.verb ≠ 0) = true) :=
  ⟨exists_of_nextWith (by decide), exists_of_nextWith (by decide), exists_of_nextWith (by decide)⟩

/-- S9. -/
theorem witness_FaultsArePrecise :
    ∃ t, step (inRun [3, 5, 10, 2] 0) = .next t ∧ faulted .unknownOpcode 3 0 0 [3, 5, 10, 2] t = true :=
  exists_of_nextWith (by decide)

/-- A faulted block: START is ignored, CLEAR leads out. -/
theorem witness_FaultIsTerminal :
    (∃ t, step { withHost [3, 5, 10, 2] (.writeReg .cmd 1) with
        status := .fault
        errCode := .unknownOpcode
        errInfo0 := 3 } = .next t ∧ faulted .unknownOpcode 3 0 0 [3, 5, 10, 2] t = true) ∧
    (∃ t, step { clearing with status := .fault } = .next t ∧ decide (t.status = .idle) = true) :=
  ⟨exists_of_nextWith (by decide), exists_of_nextWith (by decide)⟩

theorem witness_StepKeepsInvariant :
    Inv (inRun [1, 0, 0, 4] 0) ∧
    ∃ t, step (inRun [1, 0, 0, 4] 0) = .next t ∧ faulted .pastEnd 4 0 0 [1, 0, 0, 4] t = true :=
  ⟨inv_of_vd5, exists_of_nextWith (by decide)⟩

theorem witness_LoadedRunNeverStops :
    Inv (inRun [1, 0, 0, 4] 0) ∧ Loaded (inRun [1, 0, 0, 4] 0) ∧ (inRun [1, 0, 0, 4] 0).status = .running ∧
    (inRun [1, 0, 0, 4] 0).resetDue = false := ⟨inv_of_vd5, by unfold Loaded; decide, rfl, rfl⟩

/-- Two states that differ above LEN, in a latch, in NOUN, in MEM_DEPTH and in what the host will do. -/
theorem witness_RunDependsOnProgramAlone :
    Agree (inRun [1, 2, 2, 0] 0)
      { inRun [1, 2, 2, 0] 0 with
        mem := image 0 [1, 2, 2, 0, 77]
        latch := { Latches.reset with va := 5 }
        noun := 9
        memDepth := 64
        host := [.readReg .status] } ∧
    1 ≤ (inRun [1, 2, 2, 0] 0).len.toNat ∧ (inRun [1, 2, 2, 0] 0).status = .running ∧
    (inRun [1, 2, 2, 0] 0).resetDue = false :=
  ⟨{ cells := by decide, len := rfl, pc := rfl, status := rfl, mode := rfl, result := rfl, errCode := rfl,
      errInfo0 := rfl, errInfo1 := rfl, resets := rfl }, by decide, rfl, rfl⟩

/-- A reset in a run, another to come. -/
theorem witness_ResetInAnyState : ({ inRun [1, 2, 2, 0] 0 with resets := [0, 3] } : State).resets = 0 :: [3] := rfl

theorem witness_IdleWithoutHostStays :
    State.reset.status ≠ .running ∧ State.reset.resetDue = false ∧ State.reset.host = [] := by decide

/-- LEN of 0, of 5 (above no limit), and above MEM_DEPTH; bits [63:3] of what is written to CMD do not matter. -/
theorem witness_StartLaunches :
    (AtHostAction (withHost [] (.writeReg .cmd 1)) (.writeReg .cmd 1) [] ∧
      (withHost [] (.writeReg .cmd 1)).status = .idle ∧ (1 : Word).toNat % 8 = 1 ∧
      (withHost [] (.writeReg .cmd 1)).len = 0) ∧
    (AtHostAction (withHost [1, 0, 0, 0, 99] (.writeReg .cmd 9)) (.writeReg .cmd 9) [] ∧ (9 : Word).toNat % 8 = 1) ∧
    ({ withHost [1, 0, 0, 0, 99] (.writeReg .cmd 1) with memDepth := 4 } : State).len.toNat > 4 := by
  unfold AtHostAction; decide

/-- LEN of 0, of 4 and of 5. -/
theorem witness_StartNvLaunches :
    (AtHostAction (withHost [] (.writeReg .cmd 2)) (.writeReg .cmd 2) [] ∧ (2 : Word).toNat % 8 = 2) ∧
    (AtHostAction (withHost [1, 0, 0, 0] (.writeReg .cmd 2)) (.writeReg .cmd 2) [] ∧
      (withHost [1, 0, 0, 0] (.writeReg .cmd 2)).len.toNat ≤ 4) ∧
    (AtHostAction (withHost [1, 0, 0, 0, 99] (.writeReg .cmd 2)) (.writeReg .cmd 2) [] ∧
      ¬ (withHost [1, 0, 0, 0, 99] (.writeReg .cmd 2)).len.toNat ≤ 4) := by
  unfold AtHostAction; decide

theorem witness_StepCommandLaunches :
    (AtHostAction (withHost [] (.writeReg .cmd 3)) (.writeReg .cmd 3) [] ∧ (3 : Word).toNat % 8 = 3) ∧
    AtHostAction (withHost [99] (.writeReg .cmd 3)) (.writeReg .cmd 3) [] := by
  unfold AtHostAction; decide

theorem witness_ClearReturnsToIdle :
    AtHostAction clearing (.writeReg .cmd 4) [] ∧ (4 : Word).toNat % 8 = 4 ∧
    AtHostAction (withHost [99] (.writeReg .cmd 4)) (.writeReg .cmd 4) [] := by
  unfold AtHostAction; decide

/-- Numbers 0, 5 and 7 while IDLE, and START while halted. -/
theorem witness_UnacceptedCommandsAreIgnored :
    (AtHostAction (withHost [99] (.writeReg .cmd 8)) (.writeReg .cmd 8) [] ∧ (8 : Word).toNat % 8 = 0) ∧
    (AtHostAction (withHost [99] (.writeReg .cmd 5)) (.writeReg .cmd 5) [] ∧ 5 ≤ (5 : Word).toNat % 8) ∧
    (AtHostAction (withHost [99] (.writeReg .cmd 7)) (.writeReg .cmd 7) [] ∧ 5 ≤ (7 : Word).toNat % 8) ∧
    (AtHostAction { clearing with host := [.writeReg .cmd 1] } (.writeReg .cmd 1) [] ∧ clearing.status ≠ .idle ∧
      1 ≤ (1 : Word).toNat % 8 ∧ (3 : Word).toNat % 8 ≤ 3) := by
  unfold AtHostAction; decide

theorem witness_HostReadsRegisters :
    AtHostAction (withHost [99] (.readReg .len)) (.readReg .len) [] := by unfold AtHostAction; decide

/-- While IDLE and in HALTED, where the write is ignored. -/
theorem witness_HostWritesRegisters :
    (AtHostAction (withHost [99] (.writeReg .pc 4)) (.writeReg .pc 4) [] ∧ HostReg.pc ≠ .cmd) ∧
    AtHostAction { clearing with host := [.writeReg .noun 4] } (.writeReg .noun 4) [] := by
  unfold AtHostAction; decide

/-- The last cell, one past it, and a write outside IDLE. -/
theorem witness_HostWritesCells :
    (AtHostAction { withHost [99] (.writeCell 7 5) with memDepth := 8 } (.writeCell 7 5) [] ∧ 7 < 8) ∧
    AtHostAction { withHost [99] (.writeCell 8 5) with memDepth := 8 } (.writeCell 8 5) [] ∧
    (AtHostAction { clearing with host := [.writeCell 0 5] } (.writeCell 0 5) [] ∧ clearing.status ≠ .idle) := by
  unfold AtHostAction; decide

/-- A cell that holds a value, one that nothing has written, and one at MEM_DEPTH. -/
theorem witness_HostReadsCells :
    (AtHostAction (withHost [99] (.readCell 0)) (.readCell 0) [] ∧
      (withHost [99] (.readCell 0)).mem.read 0 = some 99) ∧
    (AtHostAction (withHost [99] (.readCell 1)) (.readCell 1) [] ∧ (withHost [99] (.readCell 1)).mem.read 1 = none) ∧
    AtHostAction { withHost [99] (.readCell 8) with memDepth := 8 } (.readCell 8) [] := by
  unfold AtHostAction; decide

/-- Two reads of a cell that nothing has written, and of the last cell there is. -/
theorem witness_HostReadsAreIdempotent :
    (AtHostAction { loaded [99] with host := [.readCell 1, .readCell 1] } (.readCell 1) [.readCell 1] ∧
      ({ loaded [99] with host := [.readCell 1, .readCell 1] } : State).tick.resetDue = false ∧
      (loaded [99]).mem.read 1 = none) ∧
    (AtHostAction { loaded [99] with memDepth := 8, host := [.readCell 7, .readCell 7] } (.readCell 7) [.readCell 7] ∧
      7 < ({ loaded [99] with memDepth := 8 } : State).memDepth) := by
  unfold AtHostAction; decide

/-- A cell changed by the host, by START_NV (cells 1 and 2), and by a running ADD. -/
theorem witness_CellsChangeByWritesAlone :
    (∃ t, step (withHost [99] (.writeCell 0 5)) = .next t ∧
      decide (t.hostCell 0 ≠ (withHost [99] (.writeCell 0 5)).hostCell 0) = true) ∧
    (∃ t, step { withHost [1, 0, 0, 0, 99] (.writeReg .cmd 2) with noun := 5, verb := 6 } = .next t ∧
      decide (t.hostCell 1 ≠ (loaded [1, 0, 0, 0, 99]).hostCell 1 ∧
        t.hostCell 2 ≠ (loaded [1, 0, 0, 0, 99]).hostCell 2) = true) ∧
    (∃ t, step (inRun [1, 2, 2, 0] 0) = .next t ∧ decide (t.hostCell 0 ≠ (inRun [1, 2, 2, 0] 0).hostCell 0) = true) :=
  ⟨exists_of_nextWith (by decide), exists_of_nextWith (by decide), exists_of_nextWith (by decide)⟩

theorem witness_LoadScriptLoads :
    ({ State.reset with host := loadScript [1, 0, 0, 0, 99] 1 } : State).status = .idle ∧
    State.reset.resets = [] ∧ imageWf State.reset.memDepth [1, 0, 0, 0, 99] = true := by decide

end Sys2Proof.Tests
end

/-!
PROOFS of the family 00_scope: every transition keeps the invariant of legal states (O32).

The invariant is read in three parts: what holds of MEM and MEM_DEPTH (`MemSound`), the error registers
(`RecordSound`), and what STATUS promises (`StatusSound`). A transition is a reset, a running datapath's step
(`RunningStep`), or the host's turn (`Served`), and each of their cases keeps the three parts.
-/

namespace Sys2Proof.Machine

/-! ### The invariant in three parts -/

/-- What the invariant says of the memory and its depth (R5, R11), whatever STATUS is. -/
structure MemSound (m : Memory) (depth : Nat) : Prop where
  wf : m.Wf
  below : ∀ x ∈ m, x.1 < depth
  depthLegal : Config.minDepth ≤ depth ∧ depth ≤ Config.maxDepth

/-- What the invariant says of each value of STATUS (R12, R17, R20, R29 item 2, R83). -/
def StatusSound (s : State) : Prop :=
  match s.status with
  | .idle => True
  | .running => LenLegal s ∧ (s.mode = .run → s.pc.toNat % 4 = 0 ∧ s.pc.toNat ≤ s.bound)
  | .halted => LenLegal s ∧ s.mem.read 0 = some s.result ∧ s.mem.read s.pc.toNat = some 99
  | .ended => LenLegal s ∧ s.mem.read 0 = some s.result ∧ s.mode = .run ∧ s.pc.toNat = s.bound
  | .fault => True

/-- The error registers after CLEAR or reset: nothing is recorded (R18, R19). -/
def NoRecord (s : State) : Prop := s.errCode = .none ∧ s.errInfo0 = 0 ∧ s.errInfo1 = 0

theorem Inv.memSound {s : State} (h : Inv s) : MemSound s.mem s.memDepth := ⟨h.memWf, h.memBelow, h.depthLegal⟩

theorem Inv.statusSound {s : State} (h : Inv s) : StatusSound s := by
  unfold StatusSound
  cases hs : s.status with
  | idle | fault => trivial
  | running => exact ⟨h.lenLegal (.inl hs), h.pcInRun hs⟩
  | halted => exact ⟨h.lenLegal (.inr (.inl hs)), h.resultValid (.inl hs), h.haltedAtHlt hs⟩
  | ended => exact ⟨h.lenLegal (.inr (.inr hs)), h.resultValid (.inr hs), h.endedAtBound hs⟩

/-- The three parts make up the invariant. -/
theorem inv_of_parts {s : State} (hm : MemSound s.mem s.memDepth) (hr : RecordSound s) (hs : StatusSound s) :
    Inv s where
  memWf := hm.wf
  memBelow := hm.below
  depthLegal := hm.depthLegal
  lenLegal := by rintro (e | e | e) <;> simp only [StatusSound, e] at hs <;> exact hs.1
  pcInRun := fun e => by
    simp only [StatusSound, e] at hs
    exact hs.2
  record := hr
  resultValid := by rintro (e | e) <;> simp only [StatusSound, e] at hs <;> exact hs.2.1
  haltedAtHlt := fun e => by
    simp only [StatusSound, e] at hs
    exact hs.2.2
  endedAtBound := fun e => by
    simp only [StatusSound, e] at hs
    exact hs.2.2

/-- Nothing is recorded outside FAULT. -/
theorem RecordSound.noRecord {s : State} (h : RecordSound s) (hs : s.status ≠ .fault) : NoRecord s := by
  unfold RecordSound at h
  unfold NoRecord
  cases e : s.errCode <;> simp_all

theorem NoRecord.recordSound {s : State} (h : NoRecord s) (hs : s.status ≠ .fault) : RecordSound s := by
  obtain ⟨hc, h0, h1⟩ := h
  simp only [RecordSound, hc]
  exact ⟨hs, h0, h1⟩

/-- Outside FAULT the record to check is an empty one. -/
theorem inv_of_noRecord {s : State} (hf : s.status ≠ .fault) (hm : MemSound s.mem s.memDepth) (he : NoRecord s)
    (hs : StatusSound s) : Inv s := inv_of_parts hm (he.recordSound hf) hs

/-- In IDLE the invariant asks nothing but a sound memory and empty error registers. -/
theorem inv_of_idle {s : State} (hs : s.status = .idle) (hm : MemSound s.mem s.memDepth) (he : NoRecord s) : Inv s :=
  inv_of_noRecord (by simp [hs]) hm he (by simp [StatusSound, hs])

/-- In FAULT it asks nothing but a sound memory and a sound record. -/
theorem inv_takeFault {s : State} {g : HwFault} (hm : MemSound s.mem s.memDepth) (hr : RecordSound (takeFault g s)) :
    Inv (takeFault g s) :=
  inv_of_parts hm hr trivial

/-- The fields that the invariant does not read may change. -/
theorem Inv.frame {s : State} (h : Inv s) (noun verb : Word) (latch : Latches) (port : List Transaction)
    (host : List HostAction) (hostData : Word) (resets : List Nat) (freeCount resetCount : Nat) :
    Inv { s with
      noun := noun, verb := verb, latch := latch, port := port, host := host, hostData := hostData
      resets := resets, freeCount := freeCount, resetCount := resetCount } :=
  inv_of_parts h.memSound h.record h.statusSound

/-- A write below MEM_DEPTH keeps the memory sound. -/
theorem MemSound.write {m : Memory} {depth : Nat} (h : MemSound m depth) {i : Nat} (hi : i < depth) (v : Word) :
    MemSound (m.write i v) depth where
  wf := wf_write h.wf i v
  below := fun x hx => by
    rcases mem_write hx with rfl | hx
    · exact hi
    · exact h.below x hx
  depthLegal := h.depthLegal

/-! ### Reset -/

theorem inv_hardReset {s : State} (h : Inv s) : Inv (hardReset s) :=
  inv_of_idle rfl ⟨wf_nil, by simp [hardReset, State.reset], h.depthLegal⟩ ⟨rfl, rfl, rfl⟩

/-! ### The running datapath -/

/-- What a running datapath starts its step from. -/
theorem Inv.of_running {s : State} (h : Inv s) (hr : s.status = .running) :
    LenLegal s ∧ NoRecord s ∧ s.len.toNat ≤ Config.maxDepth :=
  have hl := h.lenLegal (.inl hr)
  ⟨hl, h.record.noRecord (by simp [hr]), hl.2.trans h.depthLegal.2⟩

/-- A fault met while running records what its rule says (R88 to R92): the positions recorded do not wrap. -/
theorem recordSound_of_raisedAt {s : State} {g : HwFault} (hl : s.len.toNat ≤ Config.maxDepth) (hg : RaisedAt s g) :
    RecordSound (takeFault g s) := by
  unfold Config.maxDepth at hl
  rcases hg with ⟨rfl, hpc⟩ | ⟨rfl, -⟩ | ⟨op, rfl, h1, h2, h99, -, -⟩ | ⟨hpc, hg⟩
  · exact ⟨rfl, rfl, .inl (by simpa [HwFault.info0] using hpc)⟩
  · exact ⟨rfl, by simp [HwFault.info0], rfl⟩
  · exact ⟨rfl, by simp [HwFault.info1], h1, h2, h99⟩
  · rcases hg with ⟨rfl, h3⟩ | ⟨rfl, -⟩ | ⟨d, rfl, hd⟩ | ⟨p, a, rfl, hp, ha⟩
    · have hw : (BitVec.ofNat 64 (s.pc.toNat + 3)).toNat = s.pc.toNat + 3 := by
        rw [BitVec.toNat_ofNat, Nat.mod_eq_of_lt (by omega)]
      exact ⟨rfl, rfl, .inl (hw.symm ▸ h3)⟩
    · exact ⟨rfl, by simp [HwFault.info0], rfl⟩
    · exact ⟨rfl, rfl, hd⟩
    · refine ⟨rfl, ?_, ha⟩
      rcases hp with rfl | rfl
      · exact .inl (by simp [HwFault.info0, BitVec.ofNat_add])
      · exact .inr (by simp [HwFault.info0, BitVec.ofNat_add])

/-- From a multiple of 4 below BOUND the next slot is at most at BOUND, and PC does not wrap (R29 item 2, R81). -/
theorem pc_add_four {s : State} (hl : s.len.toNat ≤ Config.maxDepth) (h4 : s.pc.toNat % 4 = 0)
    (hb : s.pc.toNat < s.bound) : (s.pc + 4).toNat % 4 = 0 ∧ (s.pc + 4).toNat ≤ s.bound := by
  unfold Config.maxDepth at hl
  rw [bound_eq] at hb ⊢
  have hw : (s.pc + 4).toNat = s.pc.toNat + 4 := by
    have h : (4 : Word).toNat = 4 := rfl
    rw [BitVec.toNat_add, h]
    omega
  omega

/-- An ADD or MUL that stores its result keeps the invariant: the run goes on, or the single step is over. -/
theorem inv_proceed_memWrite {s : State} (h : Inv s) (hat : AtInstruction s) {i : Nat} (hi : i < s.len.toNat)
    (v : Word) : Inv (proceed (memWrite i v s)) := by
  obtain ⟨hr, -, hb⟩ := hat
  obtain ⟨hl, he, hmax⟩ := h.of_running hr
  have hm : MemSound (s.mem.write i v) s.memDepth := h.memSound.write (hi.trans_le hl.2) v
  cases mode : s.mode with
  | run =>
    have hs : (proceed (memWrite i v s)).status = .running := by simp [State.statusAfterProceed, mode, hr]
    refine inv_of_noRecord (by rw [hs]; decide) hm he ?_
    simp only [StatusSound, hs]
    exact ⟨hl, fun _ => pc_add_four hmax (h.pcInRun hr mode).1 (hb mode)⟩
  | single => exact inv_of_idle (by simp [State.statusAfterProceed, mode]) hm he

/-- Every outcome of a running datapath's step keeps the invariant. -/
theorem inv_of_runningStep {s t : State} (h : Inv s) (hr : s.status = .running) (k : RunningStep s (.next t)) :
    Inv t := by
  obtain ⟨hl, he, hmax⟩ := h.of_running hr
  cases k with
  | ended v mode hb h0 =>
    have hpc : s.pc.toNat = s.bound := Nat.le_antisymm (h.pcInRun hr mode).2 hb
    exact inv_of_noRecord nofun h.memSound he ⟨hl, h0, mode, hpc⟩
  | stored d u hat hu _ _ hd =>
    rw [hu]
    exact (inv_proceed_memWrite h hat hd u.latch.r).frame ..
  | raised g u _ hu hg =>
    rw [hu]
    exact (inv_takeFault h.memSound (recordSound_of_raisedAt hmax hg)).frame ..
  | halted u v _ hu _ hop h0 =>
    rw [hu]
    exact inv_of_noRecord nofun h.memSound he ⟨hl, h0, hop⟩

/-! ### The host's turn -/

/-- A launch refused for its length records that length (R93). -/
theorem inv_invalidLength {s : State} (hm : MemSound s.mem s.memDepth) (hl : s.lenIllegal = true) :
    Inv (takeFault (.invalidLength s.len) (clearRecord s)) :=
  inv_takeFault hm ⟨rfl, rfl, rfl, not_lenLegal_of hl⟩

/-- A run begins at PC = 0, below or at any BOUND (R80). -/
theorem inv_beginRun {s : State} (hm : MemSound s.mem s.memDepth) (he : NoRecord s) (hl : LenLegal s) :
    Inv (beginRun s) :=
  inv_of_noRecord nofun hm he ⟨hl, fun _ => ⟨rfl, Nat.zero_le _⟩⟩

theorem noRecord_clearRecord (s : State) : NoRecord (clearRecord s) := ⟨rfl, rfl, rfl⟩

theorem inv_startCommand {s : State} (hm : MemSound s.mem s.memDepth) : Inv (startCommand s) := by
  rcases startCommand_cases s with ⟨hl, e⟩ | ⟨hl, e⟩ <;> rw [e]
  · exact inv_invalidLength hm hl
  · exact inv_beginRun hm (noRecord_clearRecord s) (lenLegal_of (s := s) (by simp [hl]))

/-- START_NV writes cells 1 and 2 where LEN is above 4, so below MEM_DEPTH (R115). -/
theorem inv_startNvCommand {s : State} (hm : MemSound s.mem s.memDepth) : Inv (startNvCommand s) := by
  rcases startNvCommand_cases s with ⟨hl, e⟩ | ⟨-, h4, e⟩ | ⟨hl, h4, e⟩ <;> rw [e]
  · exact inv_invalidLength hm hl
  · exact inv_takeFault hm ⟨rfl, rfl, .inr ⟨by simp [HwFault.info0], h4⟩⟩
  · have hl' : LenLegal s := lenLegal_of (by simp [hl])
    have hd : 4 < s.memDepth := h4.trans_le hl'.2
    exact inv_beginRun ((hm.write (by omega) s.noun).write (by omega) s.verb) (noRecord_clearRecord s) hl'

theorem inv_stepCommand {s : State} (hm : MemSound s.mem s.memDepth) : Inv (stepCommand s) := by
  rcases stepCommand_cases s with ⟨hl, e⟩ | ⟨hl, e⟩ <;> rw [e]
  · exact inv_invalidLength hm hl
  · exact inv_of_noRecord nofun hm (noRecord_clearRecord s)
      ⟨lenLegal_of (s := s) (by simp [hl]), nofun⟩

/-- Every host action served keeps the invariant: LEN, PC and the cells are written in IDLE alone. -/
theorem inv_of_served {s t : State} (h : Inv s) (k : Served s t) : Inv t := by
  have he (hi : s.status = .idle) : NoRecord s := h.record.noRecord (by simp [hi])
  cases k with
  | data | noun | verb => exact h.frame ..
  | same => exact h
  | cell i v hi hb => exact inv_of_idle hi (h.memSound.write hb v) (he hi)
  | len v hi | pc v hi => exact inv_of_idle hi h.memSound (he hi)
  | start => exact inv_startCommand h.memSound
  | startNv => exact inv_startNvCommand h.memSound
  | step => exact inv_stepCommand h.memSound
  | clear => exact inv_of_idle rfl h.memSound ⟨rfl, rfl, rfl⟩

/-! ### Every transition -/

/-- Settles O32: a transition is a reset that is due, a running datapath's step, or the host's turn. -/
theorem stepKeepsInvariant : Obligations.StepKeepsInvariant := by
  intro s t h hst
  by_cases hd : s.resetDue = true
  · rw [step_reset hd] at hst
    cases hst
    exact inv_hardReset h
  simp only [Bool.not_eq_true] at hd
  by_cases hr : s.status = .running
  · exact inv_of_runningStep h hr (hst ▸ running_step hr hd)
  rcases host_step hr hd with ⟨-, e⟩ | ⟨act, rest, u, -, -, hu, e⟩ <;> cases e.symm.trans hst
  · exact h.frame ..
  · exact inv_of_served (h.frame ..) hu

end Sys2Proof.Machine

/-!
PROOFS of the family 10_state: what a run depends on (O35), what a transition may do to cells and registers (O22, O24,
O27, O28, O29), reset (O33, O36), and the host's accesses (O38, O43 to O47).
-/

namespace Sys2Proof.Machine

/-! ### Two states that a running datapath cannot tell apart -/

/-- The states agree (R122) and have made the same transactions so far in this transition. -/
structure Twin (s t : State) : Prop extends Agree s t where
  port : s.port = t.port

theorem Twin.log {s t : State} (h : Twin s t) (x : Transaction) : Twin (s.log x) (t.log x) :=
  { h with port := by simp [h.port] }

/-- The latches are not among what the twins share: no step reads one it has not written (R26). -/
theorem Twin.latched {s t : State} (h : Twin s t) (f g : Latches → Latches) : Twin (s.latched f) (t.latched g) :=
  { h with }

theorem Twin.memWrite {s t : State} (h : Twin s t) (i : Nat) (v : Word) : Twin (memWrite i v s) (memWrite i v t) :=
  { h with
    cells := fun k hk => by simp only [memWrite_mem, read_write, h.cells k hk]
    port := by simp [h.port] }

theorem Twin.takeFault {s t : State} (h : Twin s t) (f : HwFault) : Twin (takeFault f s) (takeFault f t) :=
  { h with status := rfl, errCode := rfl, errInfo0 := rfl, errInfo1 := rfl }

theorem Twin.proceed {s t : State} (h : Twin s t) : Twin (proceed s) (proceed t) :=
  { h with
    pc := by simp [h.pc]
    status := by simp [State.statusAfterProceed, h.mode, h.status] }

theorem Twin.fetched {s t : State} (h : Twin s t) (op : Word) : Twin (s.fetched op) (t.fetched op) :=
  { h with port := by simp [h.port, h.pc] }

/-- A transition starts with an empty transaction record, so states that agree start it as twins. -/
theorem Agree.tick {s t : State} (h : Agree s t) : Twin s.tick t.tick :=
  { h with resets := by simp only [State.tick, h.resets], port := rfl }

theorem Twin.programCell {s t : State} (h : Twin s t) (p : Nat) : s.programCell p = t.programCell p := by
  unfold State.programCell
  rw [← h.len]
  split
  · exact h.cells p ‹_›
  · rfl

theorem Twin.outcomesAlike {s t : State} (h : Twin s t) : OutcomesAlike (.next s) (.next t) := ⟨h.toAgree, h.port⟩

/-! ### Pieces of pseudocode on twins -/

/-- The two results are the same value, the same fault raised or the same stop, in twins again. -/
inductive Res.Alike {α : Type} : Res α → Res α → Prop where
  | ok (v : α) {s t : State} (h : Twin s t) : Res.Alike (.ok v s) (.ok v t)
  | raise (f : HwFault) {s t : State} (h : Twin s t) : Res.Alike (.raise f s) (.raise f t)
  | stop (f : Fault) : Res.Alike (.stop f) (.stop f)

theorem Res.Alike.andThen {α β : Type} {x y : Res α} (h : x.Alike y) {k l : α → State → Res β}
    (hk : ∀ v s t, Twin s t → (k v s).Alike (l v t)) : (x.andThen k).Alike (y.andThen l) := by
  cases h with
  | ok v h => exact hk v _ _ h
  | raise f h => exact .raise f h
  | stop f => exact .stop f

theorem Res.Alike.toOutcome {x y : Res Unit} (h : x.Alike y) : OutcomesAlike x.toOutcome y.toOutcome := by
  cases h with
  | ok _ h => exact h.proceed.outcomesAlike
  | raise f h => exact (h.takeFault f).outcomesAlike
  | stop f => exact rfl

theorem memRead_alike {s t : State} (h : Twin s t) {i : Nat} (hi : i < s.len.toNat) :
    (memRead i s).Alike (memRead i t) := by
  unfold memRead
  rw [← h.cells i hi]
  cases s.mem.read i with
  | none => exact .stop _
  | some v => exact .ok v (h.log _)

theorem readCellWith_alike {s t : State} (h : Twin s t) (c : Option Word) (p : Nat) :
    (readCellWith c p s).Alike (readCellWith c p t) := by
  unfold readCellWith
  rw [← h.len]
  split
  · exact .raise _ h
  split
  · exact .raise _ h
  cases c with
  | none => exact .stop _
  | some v => exact .ok v (h.log _)

/-- An address that passes the operand check is below LEN, so the cell it names is one the twins share. -/
theorem readOperand_alike {s t : State} (h : Twin s t) (o : Operand) (c : Option Word) :
    (readOperand o c s).Alike (readOperand o c t) := by
  unfold readOperand
  rw [← h.pc]
  refine (readCellWith_alike h c _).andThen fun a s1 t1 h1 => ?_
  have h2 := h1.latched (o.latchField a) (o.latchField a)
  have hbad : (t1.latched (o.latchField a)).operandBad a = (s1.latched (o.latchField a)).operandBad a := by
    simp only [State.operandBad, h2.len]
  simp only [hbad, ← h2.pc]
  split
  next => exact .raise _ h2
  next hgood =>
    have hlt : a.toNat < s1.len.toNat := operand_lt (by simpa using hgood)
    exact (memRead_alike h2 hlt).andThen fun v _ _ h3 => .ok v (h3.latched _ _)

theorem checkDest_alike {s t : State} (h : Twin s t) (d : Word) : (checkDest d s).Alike (checkDest d t) := by
  have hbad : t.destBad d = s.destBad d := by simp only [State.destBad, h.len]
  unfold checkDest
  rw [hbad]
  split
  · exact .raise _ h
  · exact .ok () h

theorem writeCell_alike {s t : State} (h : Twin s t) (d v : Word) : (writeCell d v s).Alike (writeCell d v t) := by
  unfold writeCell
  rw [← h.len]
  split
  · exact .raise _ h
  · exact .ok () (h.memWrite _ _)

theorem arith_alike {s t : State} (h : Twin s t) (f : Word → Word → Word) (a b d : Option Word) :
    (arith f a b d s).Alike (arith f a b d t) := by
  unfold arith
  rw [← h.pc]
  refine (readCellWith_alike h d _).andThen fun dst _ _ h1 => ?_
  refine (checkDest_alike (h1.latched _ _) dst).andThen fun _ _ _ h2 => ?_
  refine (readOperand_alike h2 .first a).andThen fun va _ _ h3 => ?_
  refine (readOperand_alike h3 .second b).andThen fun vb _ _ h4 => ?_
  exact writeCell_alike (h4.latched _ _) dst _

/-! ### A step of twins -/

theorem finish_alike {s t : State} (h : Twin s t) (h0 : 0 < s.len.toNat) (st : Status) :
    OutcomesAlike (finish st s) (finish st t) := by
  cases h0t : t.mem.read 0 with
  | none =>
    rw [finish_none st ((h.cells 0 h0).trans h0t), finish_none st h0t]
    exact rfl
  | some v =>
    rw [finish_some st ((h.cells 0 h0).trans h0t), finish_some st h0t]
    exact ⟨{ h with status := rfl, result := rfl }, by simp only [h.port]⟩

theorem arithInPlace_alike {s t : State} (h : Twin s t) (f : Word → Word → Word) :
    OutcomesAlike (arithInPlace f s) (arithInPlace f t) := by
  simp only [arithInPlace, h.programCell, ← h.pc]
  exact (arith_alike h f _ _ _).toOutcome

theorem dispatchSlot_alike {s t : State} (h : Twin s t) {op : Word} (hop : s.programCell s.pc.toNat = some op) :
    OutcomesAlike (dispatchSlot s) (dispatchSlot t) := by
  have hop' : t.programCell t.pc.toNat = some op := by rw [← h.pc, ← h.programCell, hop]
  rw [dispatchSlot_eq hop, dispatchSlot_eq hop', ← h.pc]
  split
  · exact arithInPlace_alike h aluAdd
  split
  · exact arithInPlace_alike h aluMul
  split
  · exact finish_alike h ((Nat.zero_le _).trans_lt (programCell_some hop).1) .halted
  · exact (h.takeFault _).outcomesAlike

theorem stepAtPc_alike {s t : State} (h : Twin s t) : OutcomesAlike (stepAtPc s) (stepAtPc t) := by
  rcases Nat.lt_trichotomy s.pc.toNat s.len.toNat with hlt | heq | hgt
  · have hread : s.mem.read s.pc.toNat = t.mem.read t.pc.toNat := by rw [← h.pc, h.cells _ hlt]
    have hlt' : t.pc.toNat < t.len.toNat := h.pc ▸ h.len ▸ hlt
    cases hop : t.mem.read t.pc.toNat with
    | none =>
      rw [stepAtPc_none hlt (hread.trans hop), stepAtPc_none hlt' hop, h.pc]
      exact rfl
    | some op =>
      rw [stepAtPc_some hlt (hread.trans hop), stepAtPc_some hlt' hop]
      exact dispatchSlot_alike (h.fetched op) ((programCell_of_lt hlt).trans (hread.trans hop))
  · rw [stepAtPc_at heq, stepAtPc_at (h.pc ▸ h.len ▸ heq), h.pc]
    exact (h.takeFault _).outcomesAlike
  · rw [stepAtPc_above hgt, stepAtPc_above (h.pc ▸ h.len ▸ hgt), h.pc]
    exact (h.takeFault _).outcomesAlike

theorem running_alike {s t : State} (h : Twin s t) (h0 : 0 < s.len.toNat) :
    OutcomesAlike (running s) (running t) := by
  have hb : t.bound = s.bound := by simp only [bound_eq, h.len]
  unfold running
  rw [← h.mode, hb, ← h.pc]
  cases s.mode with
  | run =>
    dsimp only
    split
    · exact finish_alike h h0 .ended
    · exact stepAtPc_alike h
  | single => exact stepAtPc_alike h

/-- Settles O35: the datapath's pseudocode, piece by piece, cannot tell twins apart. -/
theorem runDependsOnProgramAlone : Obligations.RunDependsOnProgramAlone := by
  intro s t h h0 hr hd
  have hd' : t.resetDue = false := by rw [State.resetDue, ← h.resets]; exact hd
  rw [step_running hr hd, step_running (h.status ▸ hr) hd']
  exact running_alike h.tick h0

/-! ### What a running datapath's step does -/

/-- Where the whole slot is below LEN, no position is out of bounds, and a fault past the end is the destination's (R88,
R92, R94). -/
theorem RaisedAt.of_slot_inside {s : State} {g : HwFault} (h3 : s.pc.toNat + 3 < s.len.toNat) (hg : RaisedAt s g) :
    g.kind ≠ .programPosition ∧
      (g.kind = .pastEnd → ∃ d, s.mem.read (s.pc.toNat + 3) = some d ∧ d.toNat = s.len.toNat) := by
  rcases hg with ⟨-, hpc⟩ | ⟨-, hpc⟩ | ⟨op, rfl, -⟩ | ⟨-, hg⟩
  · omega
  · omega
  · exact ⟨nofun, nofun⟩
  · rcases hg with ⟨-, hpc⟩ | ⟨rfl, hpc | ⟨d, hd, hl⟩⟩ | ⟨d, rfl, -⟩ | ⟨p, a, rfl, -⟩
    · omega
    · omega
    · exact ⟨nofun, fun _ => ⟨d, (programCell_some hd).2, hl⟩⟩
    · exact ⟨nofun, nofun⟩
    · exact ⟨nofun, nofun⟩

/-- In a run PC is a multiple of 4 below BOUND, itself a multiple of 4 at most LEN (R29): the slot lies below LEN. -/
theorem slot_inside_of_run {s : State} (h : Inv s) (hat : AtInstruction s) (hm : s.mode = .run) :
    s.pc.toNat + 3 < s.len.toNat := by
  obtain ⟨hr, -, hb⟩ := hat
  have h4 := (h.pcInRun hr hm).1
  have hlt := hb hm
  rw [bound_eq] at hlt
  omega

/-- Settles O22: without a fault the record stays empty, and of the two faults only the destination's can be met. -/
theorem runFetchesStayInside : Obligations.RunFetchesStayInside := by
  intro s h hat hm
  have h3 := slot_inside_of_run h hat hm
  refine ⟨h3, fun t ht => ?_⟩
  obtain ⟨-, ⟨herr, -⟩, -⟩ := h.of_running hat.1
  have k : RunningStep s (.next t) := ht ▸ running_step hat.1 hat.2.1
  cases k with
  | ended => simp [herr]
  | stored d u _ hu => simp [hu.errCode, herr]
  | halted u v _ hu => simp [hu.errCode, herr]
  | raised g u _ _ hg => exact hg.of_slot_inside h3

/-- Settles O24: of the steps of a running datapath only the storing one writes a cell, and none writes what the host
alone may write. -/
theorem oneCellPerStep : Obligations.OneCellPerStep := by
  intro s t hr hd ht
  have k : RunningStep s (.next t) := ht ▸ running_step hr hd
  cases k with
  | ended v => exact ⟨.inl rfl, rfl, rfl, rfl, rfl, rfl, rfl, rfl, rfl⟩
  | stored d u _ hu _ hd hl =>
    rw [hu]
    exact ⟨.inr ⟨d, u.latch.r, hd, hl, rfl⟩, rfl, rfl, rfl, rfl, rfl, rfl, rfl, rfl⟩
  | raised g u _ hu | halted u v _ hu =>
    rw [hu]
    exact ⟨.inl rfl, rfl, rfl, rfl, rfl, rfl, rfl, rfl, rfl⟩

/-! ### What a host action does to the registers -/

/-- LEN, NOUN, VERB and RESULT are as they were. -/
structure RegsKept (s t : State) : Prop where
  len : t.len = s.len
  noun : t.noun = s.noun
  verb : t.verb = s.verb
  result : t.result = s.result

theorem RegsKept.refl (s : State) : RegsKept s s := ⟨rfl, rfl, rfl, rfl⟩

/-- A launch command writes none of the four, and the block is RUNNING after it or in FAULT. -/
structure LaunchFrame (s t : State) : Prop where
  kept : RegsKept s t
  status : t.status = .running ∨ t.status = .fault

theorem startCommand_frame (s : State) : LaunchFrame s (startCommand s) := by
  rcases startCommand_cases s with ⟨-, e⟩ | ⟨-, e⟩ <;> rw [e]
  · exact ⟨⟨rfl, rfl, rfl, rfl⟩, .inr rfl⟩
  · exact ⟨⟨rfl, rfl, rfl, rfl⟩, .inl rfl⟩

theorem startNvCommand_frame (s : State) : LaunchFrame s (startNvCommand s) := by
  rcases startNvCommand_cases s with ⟨-, e⟩ | ⟨-, -, e⟩ | ⟨-, -, e⟩ <;> rw [e]
  · exact ⟨⟨rfl, rfl, rfl, rfl⟩, .inr rfl⟩
  · exact ⟨⟨rfl, rfl, rfl, rfl⟩, .inr rfl⟩
  · exact ⟨⟨rfl, rfl, rfl, rfl⟩, .inl rfl⟩

theorem stepCommand_frame (s : State) : LaunchFrame s (stepCommand s) := by
  rcases stepCommand_cases s with ⟨-, e⟩ | ⟨-, e⟩ <;> rw [e]
  · exact ⟨⟨rfl, rfl, rfl, rfl⟩, .inr rfl⟩
  · exact ⟨⟨rfl, rfl, rfl, rfl⟩, .inl rfl⟩

/-- Outside RUNNING, a CMD write is CLEAR or keeps the four registers: it is a launch, or ignored (R22, R113). -/
theorem writeCmd_cases (v : Word) {s : State} (hr : s.status ≠ .running) :
    (v.toNat % 8 = 4 ∧ writeCmd v s = clearCommand s) ∨ (v.toNat % 8 ≠ 4 ∧ RegsKept s (writeCmd v s)) := by
  rw [writeCmd_eq]
  split
  next e =>
    split
    · exact .inr ⟨by omega, (startCommand_frame s).kept⟩
    · exact .inr ⟨by omega, .refl s⟩
  next e =>
    split
    · exact .inr ⟨by omega, (startNvCommand_frame s).kept⟩
    · exact .inr ⟨by omega, .refl s⟩
  next e =>
    split
    · exact .inr ⟨by omega, (stepCommand_frame s).kept⟩
    · exact .inr ⟨by omega, .refl s⟩
  next e => exact .inl ⟨e, if_neg hr⟩
  next e => exact .inr ⟨e, .refl s⟩

/-- The values that name no command, and launches outside IDLE (R22, R113). -/
theorem writeCmd_ignored {v : Word} {s : State}
    (h : v.toNat % 8 = 0 ∨ 5 ≤ v.toNat % 8 ∨ s.status ≠ .idle ∧ 1 ≤ v.toNat % 8 ∧ v.toNat % 8 ≤ 3) :
    writeCmd v s = s := by
  rw [writeCmd_eq]
  rcases h with h | h | ⟨hi, h1, h3⟩
  · simp only [h]
  · obtain h | h | h : v.toNat % 8 = 5 ∨ v.toNat % 8 = 6 ∨ v.toNat % 8 = 7 := by omega
    all_goals simp only [h]
  · obtain h | h | h : v.toNat % 8 = 1 ∨ v.toNat % 8 = 2 ∨ v.toNat % 8 = 3 := by omega
    all_goals simp only [h, if_neg hi]

/-- What a host action does to LEN, NOUN, VERB and RESULT: CLEAR makes RESULT 0, a write of one of the three in IDLE is
taken, and every other action keeps them all (R20, R22, R23). -/
inductive RegisterEffect (s : State) : HostAction → State → Prop where
  | kept {act : HostAction} {t : State} (h : RegsKept s t) (hc : ∀ v, act = .writeReg .cmd v → v.toNat % 8 ≠ 4) :
    RegisterEffect s act t
  | clear (v : Word) (h4 : v.toNat % 8 = 4) : RegisterEffect s (.writeReg .cmd v) (clearCommand s)
  | len (v : Word) (hi : s.status = .idle) : RegisterEffect s (.writeReg .len v) { s with len := v }
  | noun (v : Word) (hi : s.status = .idle) : RegisterEffect s (.writeReg .noun v) { s with noun := v }
  | verb (v : Word) (hi : s.status = .idle) : RegisterEffect s (.writeReg .verb v) { s with verb := v }

theorem serve_registerEffect (act : HostAction) {s : State} (hr : s.status ≠ .running) :
    RegisterEffect s act (serve act s) := by
  cases act with
  | readReg reg => exact .kept ⟨rfl, rfl, rfl, rfl⟩ nofun
  | readCell i =>
    simp only [serve, hostReadCell]
    split <;> exact .kept ⟨rfl, rfl, rfl, rfl⟩ nofun
  | writeCell i v =>
    simp only [serve, hostWriteCell]
    split <;> exact .kept ⟨rfl, rfl, rfl, rfl⟩ nofun
  | writeReg reg v =>
    cases reg with
    | cmd =>
      rw [serve, writeReg]
      rcases writeCmd_cases v hr with ⟨h4, e⟩ | ⟨h4, hk⟩
      · rw [e]
        exact .clear v h4
      · exact .kept hk fun _ e => by cases e; exact h4
    | len =>
      simp only [serve, writeReg]
      split
      · exact .len v ‹_›
      · exact .kept (.refl s) nofun
    | noun =>
      simp only [serve, writeReg]
      split
      · exact .noun v ‹_›
      · exact .kept (.refl s) nofun
    | verb =>
      simp only [serve, writeReg]
      split
      · exact .verb v ‹_›
      · exact .kept (.refl s) nofun
    | pc =>
      simp only [serve, writeReg]
      split <;> exact .kept ⟨rfl, rfl, rfl, rfl⟩ nofun
    | status | result | errCode | errInfo0 | errInfo1 => exact .kept (.refl s) nofun

/-- The host's turn keeps STATUS, or CLEAR makes it IDLE, or a launch takes the block out of IDLE (R17). -/
theorem Served.status {s t : State} (h : Served s t) :
    t.status = s.status ∨ t.status = .idle ∨ s.status = .idle ∧ (t.status = .running ∨ t.status = .fault) := by
  cases h with
  | data | same | cell | len | pc | noun | verb => exact .inl rfl
  | start hi => exact .inr (.inr ⟨hi, (startCommand_frame s).status⟩)
  | startNv hi => exact .inr (.inr ⟨hi, (startNvCommand_frame s).status⟩)
  | step hi => exact .inr (.inr ⟨hi, (stepCommand_frame s).status⟩)
  | clear => exact .inr (.inl rfl)

/-! ### What every transition does to RESULT, STATUS, LEN, NOUN and VERB -/

/-- After PROCEED the run goes on, or the single step is over (R80, R116). -/
theorem statusAfterProceed_cases {s : State} (hr : s.status = .running) :
    (s.mode = .run ∧ s.statusAfterProceed = .running) ∨ (s.mode = .single ∧ s.statusAfterProceed = .idle) := by
  unfold State.statusAfterProceed
  cases s.mode with
  | run => exact .inl ⟨rfl, hr⟩
  | single => exact .inr ⟨rfl, rfl⟩

theorem Touched.proceed_status {s u : State} (h : Touched s u) (i : Nat) (v : Word) :
    (proceed (memWrite i v u)).status = s.statusAfterProceed := by rw [h]; rfl

/-- A running datapath comes to a successful end with RESULT read from cell 0, or keeps RESULT (R20). -/
theorem RunningStep.result {s t : State} (hr : s.status = .running) (h : RunningStep s (.next t)) :
    (Succeeded t ∧ s.mem.read 0 = some t.result) ∨ (¬ Succeeded t ∧ t.result = s.result) := by
  cases h with
  | ended v _ _ h0 => exact .inl ⟨.inr rfl, h0⟩
  | halted u v _ _ _ _ h0 => exact .inl ⟨.inl rfl, h0⟩
  | raised g u _ hu => exact .inr ⟨by simp [Succeeded], hu.result⟩
  | stored d u _ hu =>
    refine .inr ⟨?_, hu.result⟩
    rw [Succeeded, hu.proceed_status]
    rcases statusAfterProceed_cases hr with ⟨-, e⟩ | ⟨-, e⟩ <;> simp [e]

/-- Settles O27: a reset, a running datapath's step, or the host's turn. -/
theorem resultWrittenAtSuccessAlone : Obligations.ResultWrittenAtSuccessAlone := by
  intro s t ht succeeds cleared
  by_cases hd : s.resetDue = true
  · cases (step_reset hd).symm.trans ht
    exact ⟨fun ⟨_, h, _⟩ => absurd hd (by simp [h]), fun _ => rfl, fun _ h => absurd (.inl hd) h⟩
  have hd' : s.resetDue = false := by simpa using hd
  by_cases hr : s.status = .running
  · have hc : ¬ cleared := by
      rintro (h | ⟨h, -⟩)
      · exact hd h
      · exact h hr
    rcases RunningStep.result hr (ht ▸ running_step hr hd') with ⟨hs, h0⟩ | ⟨hs, h0⟩
    · exact ⟨fun _ => h0, fun h => absurd h hc, fun h => absurd ⟨hr, hd', hs⟩ h⟩
    · exact ⟨fun ⟨_, _, h⟩ => absurd h hs, fun h => absurd h hc, fun _ _ => h0⟩
  · refine ⟨fun ⟨h, _, _⟩ => absurd h hr, ?_⟩
    rcases host_step hr hd' with ⟨hh, e⟩ | ⟨act, rest, u, hh, hu, -, e⟩ <;> cases e.symm.trans ht
    · refine ⟨?_, fun _ _ => rfl⟩
      rintro (h | ⟨-, v, rest, h, -⟩)
      · exact absurd h hd
      · cases hh.symm.trans h
    · have k : RegisterEffect (s.serving rest) act t := hu ▸ serve_registerEffect act hr
      have hact (h : cleared) : ∃ v, act = .writeReg .cmd v ∧ v.toNat % 8 = 4 := by
        rcases h with h | ⟨-, v, rest', h, h4⟩
        · exact absurd h hd
        · cases hh.symm.trans h
          exact ⟨v, rfl, h4⟩
      cases k with
      | kept hk hc =>
        exact ⟨fun h => have ⟨v, e, h4⟩ := hact h; absurd h4 (hc v e), fun _ _ => hk.result⟩
      | clear v h4 => exact ⟨fun _ => rfl, fun _ h => absurd (.inr ⟨hr, v, rest, hh, h4⟩) h⟩
      | len | noun | verb => exact ⟨fun h => (hact h).elim nofun, fun _ _ => rfl⟩

/-- How a running datapath's step moves STATUS (R80, R96, R116). -/
theorem RunningStep.status {s t : State} (hr : s.status = .running) (h : RunningStep s (.next t)) :
    (s.mode = .run → t.status ≠ .idle) ∧ (s.mode = .single → t.status ≠ .running ∧ t.status ≠ .ended) := by
  cases h with
  | ended v hm => exact ⟨nofun, by simp [hm]⟩
  | raised g u => exact ⟨nofun, fun _ => ⟨nofun, nofun⟩⟩
  | halted u v => exact ⟨nofun, fun _ => ⟨nofun, nofun⟩⟩
  | stored d u _ hu =>
    rw [hu.proceed_status]
    rcases statusAfterProceed_cases hr with ⟨hm, e⟩ | ⟨hm, e⟩ <;> simp [hm, e]

/-- Settles O28: the datapath moves STATUS from RUNNING, the host's turn from the other four values. -/
theorem statusMovesAsTabled : Obligations.StatusMovesAsTabled := by
  intro s t hd ht
  by_cases hr : s.status = .running
  · simp only [hr]
    exact RunningStep.status hr (ht ▸ running_step hr hd)
  have hmove : t.status = s.status ∨ t.status = .idle ∨
      s.status = .idle ∧ (t.status = .running ∨ t.status = .fault) := by
    rcases host_step hr hd with ⟨-, e⟩ | ⟨act, rest, u, -, -, hu, e⟩ <;> cases e.symm.trans ht
    · exact .inl rfl
    · exact hu.status
  cases hs : s.status with
  | running => exact absurd hs hr
  | idle | halted | ended | fault => simpa [hs] using hmove

/-- Settles O29: a running datapath writes none of the three, and the host each by its own write alone. -/
theorem hostRegistersWrittenByHostAlone : Obligations.HostRegistersWrittenByHostAlone := by
  intro s t ht hd
  by_cases hr : s.status = .running
  · obtain ⟨-, hl, hn, hv, -⟩ := oneCellPerStep s t hr hd ht
    exact ⟨absurd hl, absurd hn, absurd hv⟩
  rcases host_step hr hd with ⟨-, e⟩ | ⟨act, rest, u, hh, hu, -, e⟩ <;> cases e.symm.trans ht
  · exact ⟨absurd rfl, absurd rfl, absurd rfl⟩
  · have k : RegisterEffect (s.serving rest) act t := hu ▸ serve_registerEffect act hr
    cases k with
    | kept hk => exact ⟨absurd hk.len, absurd hk.noun, absurd hk.verb⟩
    | clear => exact ⟨absurd rfl, absurd rfl, absurd rfl⟩
    | len v hi => exact ⟨fun _ => ⟨hi, rest, hh⟩, absurd rfl, absurd rfl⟩
    | noun v hi => exact ⟨absurd rfl, fun _ => ⟨hi, rest, hh⟩, absurd rfl⟩
    | verb v hi => exact ⟨absurd rfl, absurd rfl, fun _ => ⟨hi, rest, hh⟩⟩

/-! ### Reset -/

/-- Settles O33: in IDLE, with no cell and nothing recorded, only the depth is to be checked. -/
theorem invariantAtReset : Obligations.InvariantAtReset :=
  inv_of_idle rfl ⟨wf_nil, nofun, by decide⟩ ⟨rfl, rfl, rfl⟩

/-- Settles O36: each register reads as its field, and the codes of IDLE and of no fault are 0. -/
theorem registersAtReset : Obligations.RegistersAtReset := by
  refine ⟨rfl, rfl, rfl, rfl, rfl, rfl, rfl, rfl, rfl, read_nil, fun r => ?_⟩
  cases r <;> rfl

/-! ### The host's accesses -/

/-- Settles O38: the host's turn with an empty list. -/
theorem idleWithoutHostStays : Obligations.IdleWithoutHostStays := by
  intro s hr hd hh
  rcases host_step hr hd with ⟨-, e⟩ | ⟨act, rest, t, h, -⟩
  · exact e
  · cases hh.symm.trans h

/-- Settles O43: served, such a write leaves the state as it found it. -/
theorem unacceptedCommandsAreIgnored : Obligations.UnacceptedCommandsAreIgnored := by
  intro s v rest h hv
  rw [step_serving h, serve, writeReg, writeCmd_ignored (s := s.serving rest) hv]

/-- Settles O44: register by register; STATUS and ERR_CODE by their codes, the others by their fields. -/
theorem hostReadsRegisters : Obligations.HostReadsRegisters := by
  intro s reg rest h
  rw [step_serving h, serve]
  refine congrArg (fun x => Host.Outcome.next { s.serving rest with hostData := x }) ?_
  cases reg with
  | status =>
    rw [State.readReg, serving_status]
    cases s.status <;> rfl
  | errCode =>
    rw [State.readReg, serving_errCode]
    cases s.errCode <;> rfl
  | cmd | len | pc | noun | verb | result | errInfo0 | errInfo1 => rfl

/-- Settles O45: the four registers the host may write ask for IDLE, the others take nothing. -/
theorem hostWritesRegisters : Obligations.HostWritesRegisters := by
  intro s reg v rest h hreg
  rw [step_serving h, serve]
  by_cases hi : s.status = .idle
  · rw [if_pos hi]
    cases reg with
    | cmd => exact absurd rfl hreg
    | len | pc | noun | verb => simp only [writeReg, serving_status, hi, if_true]
    | status | result | errCode | errInfo0 | errInfo1 => rfl
  · rw [if_neg hi]
    cases reg with
    | cmd => exact absurd rfl hreg
    | len | pc | noun | verb => simp only [writeReg, serving_status, hi, if_false]
    | status | result | errCode | errInfo0 | errInfo1 => rfl

/-- Settles O46: the write is taken, or nothing but the transition's start is seen. -/
theorem hostWritesCells : Obligations.HostWritesCells := by
  intro s i v rest h
  refine ⟨_, step_serving h, ?_⟩
  rw [serve, hostWriteCell, serving_status, serving_memDepth]
  by_cases hw : s.status = .idle ∧ i < s.memDepth
  · rw [if_pos hw]
    refine ⟨fun _ _ => ⟨read_write_same _ _ _, fun j hj => read_write_other _ _ hj⟩, ?_, rfl⟩
    rintro (h | h)
    · exact absurd hw.1 h
    · exact absurd hw.2 (Nat.not_lt.mpr h)
  · rw [if_neg hw]
    exact ⟨fun hi hb => absurd ⟨hi, hb⟩ hw, fun _ => rfl, rfl⟩

/-- Settles O47: below MEM_DEPTH the port returns the cell's content, written or unspecified; above, the next free
value. -/
theorem hostReadsCells : Obligations.HostReadsCells := by
  intro s i rest h
  rw [step_serving h, serve]
  have below (hi : i < s.memDepth) : hostReadCell i (s.serving rest) =
      { s.serving rest with hostData := s.hostCell i } := hostReadCell_below (s := s.serving rest) hi
  refine ⟨fun hi v hv => ?_, fun hi _ => ⟨s.hostCell i, by rw [below hi]⟩,
    fun hi => ⟨Config.freeWord s.freeCount, ?_⟩⟩
  · rw [below hi, hostCell_of_read hv]
  · rw [hostReadCell, serving_memDepth, if_neg (Nat.not_lt.mpr hi)]
    rfl

end Sys2Proof.Machine

/-!
PROOFS of the family 20_memory: the checked accessors (O8 to O11), what ADD and MUL meet first and what they store (O3,
O18), the host's reads (O48), and what changes a cell (O49).
-/

namespace Sys2Proof.Machine

/-! ### The checked accessors -/

/-- `ReadCell` of a cell below LEN that holds a value. -/
theorem readCell_some {s : State} {p : Nat} {v : Word} (hp : p < s.len.toNat) (hv : s.mem.read p = some v) :
    readCell p s = .ok v (s.log { addr := p, we := false, data := v }) := by
  rw [readCell, hv, readCellWith_some v hp]

theorem readOperand_above {s : State} {o : Operand} (c : Option Word) (h : s.len.toNat < s.pc.toNat + o.offset) :
    readOperand o c s = .raise (.programPosition (s.pc.toNat + o.offset)) s := by
  rw [readOperand, readCellWith_above c h, andThen_raise]

theorem readOperand_at {s : State} {o : Operand} (c : Option Word) (h : s.pc.toNat + o.offset = s.len.toNat) :
    readOperand o c s = .raise (.pastEnd (s.pc.toNat + o.offset)) s := by
  rw [readOperand, readCellWith_at c h, andThen_raise]

/-- Settles O8: the three branches of `ReadCell`, of which the last writes the transaction record alone. -/
theorem readCellTestsStrictly : Obligations.ReadCellTestsStrictly := by
  intro p s
  exact ⟨readCellWith_above _, readCellWith_at _, fun hp v hv => ⟨_, readCell_some hp hv, rfl⟩⟩

/-- Settles O9: the two ranges are those in which the destination is bad and good. -/
theorem checkDestAdmitsZeroToLen : Obligations.CheckDestAdmitsZeroToLen := by
  intro d s
  exact ⟨fun h => checkDest_bad (destBad_iff.mpr h), fun h => checkDest_good (destBad_false_iff.mpr h)⟩

/-- Settles O10: `ReadCell` of the field first, then the test of the address it holds, then the read. -/
theorem readOperandDereferences : Obligations.ReadOperandDereferences := by
  intro o addr s p
  have hp : p = s.pc.toNat + o.offset := by cases o <;> rfl
  rw [hp]
  refine ⟨readOperand_above _, readOperand_at _, fun hlt hbad => ?_, fun hlt h0 h1 v hv => ?_⟩
  · exact ⟨_, readOperand_bad hlt (operandBad_iff.mpr hbad), rfl⟩
  · exact ⟨_, readOperand_ok hlt (operandBad_false_iff.mpr ⟨h0, h1⟩) hv, rfl⟩

/-- Settles O11: at LEN the test before the write raises; below it the write is the memory port's. -/
theorem writeCellFaultsAtLen : Obligations.WriteCellFaultsAtLen := by
  intro a v s _ _
  refine ⟨fun hat => hat ▸ writeCell_at v hat, fun hlt => ?_⟩
  exact ⟨_, writeCell_below v (Nat.ne_of_lt hlt), read_write_same _ _ _, fun i hi => read_write_other _ v hi, rfl⟩

/-! ### ADD and MUL -/

theorem arith_above (f : Word → Word → Word) (a b d : Option Word) {s : State} (h : s.len.toNat < s.pc.toNat + 3) :
    arith f a b d s = .raise (.programPosition (s.pc.toNat + 3)) s := by
  rw [arith, readCellWith_above d h, andThen_raise]

theorem arith_at (f : Word → Word → Word) (a b d : Option Word) {s : State} (h : s.pc.toNat + 3 = s.len.toNat) :
    arith f a b d s = .raise (.pastEnd (s.pc.toNat + 3)) s := by
  rw [arith, readCellWith_at d h, andThen_raise]

/-- At an ADD or MUL, its opcode cell below LEN, the step is `Arith` on what there is of the slot, after the fetch. -/
theorem step_eq_arithInPlace {s : State} {op : Word} (hat : AtInstruction s) (hlt : s.pc.toNat < s.len.toNat)
    (hop : s.mem.read s.pc.toNat = some op) (h : op = 1 ∨ op = 2) :
    ∃ f, step s = arithInPlace f (s.tick.fetched op) := by
  have hcell : (s.tick.fetched op).programCell (s.tick.fetched op).pc.toNat = some op :=
    (programCell_of_lt hlt).trans hop
  rw [step_atInstruction hat, stepAtPc_some (s := s.tick) hlt hop, dispatchSlot_eq hcell]
  rcases h with rfl | rfl
  · exact ⟨aluAdd, rfl⟩
  · exact ⟨aluMul, rfl⟩

/-- Settles O3: `Arith` fetches the destination field before anything else. -/
theorem missingDestinationFieldFaults : Obligations.MissingDestinationFieldFaults := by
  intro s op hat hlt hop h
  obtain ⟨f, e⟩ := step_eq_arithInPlace hat hlt hop h
  rw [e, arithInPlace]
  constructor
  · intro h3
    rw [arith_above (s := s.tick.fetched op) _ _ _ _ h3]
    rfl
  · intro h3
    rw [arith_at (s := s.tick.fetched op) _ _ _ _ h3]
    rfl

/-- ADD and MUL are `Arith` on their three fields (R69, R70). -/
theorem exec_eq_arith {i : Instr} {a b d : Word} (h : i = .add a b d ∨ i = .mul a b d) (s : State) :
    ∃ f, exec i s = (arith f (some a) (some b) (some d) s).toOutcome := by
  rcases h with rfl | rfl
  · exact ⟨aluAdd, rfl⟩
  · exact ⟨aluMul, rfl⟩

/-- Settles O18: of the ends of `Arith` only the storing one leaves no fault, and it stores the latched result. -/
theorem storeSeenByNextFetch : Obligations.StoreSeenByNextFetch := by
  intro i a b d s t h ht hs
  obtain ⟨f, e⟩ := exec_eq_arith h s
  rw [e] at ht
  rcases arith_cases f (some a) (some b) (some d) s with
    ⟨x, u, he, hx, -, -, hlt, hu⟩ | ⟨g, u, he, -⟩ | ⟨j, he, -⟩ <;> rw [he] at ht <;> cases ht
  · cases hx
    exact readCell_some (hu.len.symm ▸ hlt) (read_write_same _ _ _)
  · exact absurd rfl hs

/-! ### The host's reads of cells -/

/-- The step that serves a host read of a cell below MEM_DEPTH, written or not. -/
theorem step_readCell {s : State} {i : Nat} {rest : List HostAction} (h : AtHostAction s (.readCell i) rest)
    (hi : i < s.memDepth) : step s = .next { s.serving rest with hostData := s.hostCell i } := by
  rw [step_serving h, serve, hostReadCell_below (s := s.serving rest) hi]
  rfl

/-- Settles O48: the first read changes no cell, so the second finds the same content and returns it again. -/
theorem hostReadsAreIdempotent : Obligations.HostReadsAreIdempotent := by
  intro s i rest h hd hi
  exact ⟨_, _, step_readCell h hi, step_readCell ⟨h.1, hd, rfl⟩ hi, rfl, rfl⟩

/-! ### What changes a cell -/

/-- No cell is written, and no reset leaves the unwritten ones unspecified anew. -/
structure CellsKept (s t : State) : Prop where
  mem : t.mem = s.mem
  resetCount : t.resetCount = s.resetCount

theorem CellsKept.refl (s : State) : CellsKept s s := ⟨rfl, rfl⟩

theorem CellsKept.hostCell {s t : State} (h : CellsKept s t) (i : Nat) : t.hostCell i = s.hostCell i :=
  hostCell_congr h.mem h.resetCount i

theorem startCommand_cellsKept (s : State) : CellsKept s (startCommand s) := by
  rcases startCommand_cases s with ⟨-, e⟩ | ⟨-, e⟩ <;> rw [e] <;> exact ⟨rfl, rfl⟩

theorem stepCommand_cellsKept (s : State) : CellsKept s (stepCommand s) := by
  rcases stepCommand_cases s with ⟨-, e⟩ | ⟨-, e⟩ <;> rw [e] <;> exact ⟨rfl, rfl⟩

/-- START_NV writes NOUN and VERB into cells 1 and 2, or no cell where it is refused (R115). -/
theorem startNvCommand_cells (s : State) :
    CellsKept s (startNvCommand s) ∨
    ((startNvCommand s).mem = (s.mem.write 1 s.noun).write 2 s.verb ∧
      (startNvCommand s).resetCount = s.resetCount) := by
  rcases startNvCommand_cases s with ⟨-, e⟩ | ⟨-, -, e⟩ | ⟨-, -, e⟩ <;> rw [e]
  · exact .inl ⟨rfl, rfl⟩
  · exact .inl ⟨rfl, rfl⟩
  · exact .inr ⟨rfl, rfl⟩

/-- What a host action does to the cells: a write of a cell that is taken, START_NV's two writes, or nothing (R23,
R115). -/
inductive CellEffect (s : State) : HostAction → State → Prop where
  | kept {act : HostAction} {t : State} (h : CellsKept s t) : CellEffect s act t
  | cell {t : State} (i : Nat) (v : Word) (hi : s.status = .idle) (hb : i < s.memDepth)
    (hm : t.mem = s.mem.write i v) (hr : t.resetCount = s.resetCount) : CellEffect s (.writeCell i v) t
  | startNv {t : State} (v : Word) (hi : s.status = .idle) (h2 : v.toNat % 8 = 2)
    (hm : t.mem = (s.mem.write 1 s.noun).write 2 s.verb) (hr : t.resetCount = s.resetCount) :
    CellEffect s (.writeReg .cmd v) t

theorem writeCmd_cellEffect (v : Word) (s : State) : CellEffect s (.writeReg .cmd v) (writeCmd v s) := by
  rw [writeCmd_eq]
  split
  · split
    · exact .kept (startCommand_cellsKept s)
    · exact .kept (.refl s)
  next h2 =>
    split
    next hi =>
      rcases startNvCommand_cells s with hk | ⟨hm, hr⟩
      · exact .kept hk
      · exact .startNv v hi h2 hm hr
    · exact .kept (.refl s)
  · split
    · exact .kept (stepCommand_cellsKept s)
    · exact .kept (.refl s)
  · split <;> exact .kept ⟨rfl, rfl⟩
  · exact .kept (.refl s)

theorem serve_cellEffect (act : HostAction) (s : State) : CellEffect s act (serve act s) := by
  cases act with
  | readReg reg => exact .kept ⟨rfl, rfl⟩
  | readCell i =>
    rw [serve, hostReadCell]
    split <;> exact .kept ⟨rfl, rfl⟩
  | writeCell i v =>
    rw [serve, hostWriteCell]
    split
    next hw => exact .cell i v hw.1 hw.2 rfl rfl
    · exact .kept (.refl s)
  | writeReg reg v =>
    cases reg with
    | cmd => exact writeCmd_cellEffect v s
    | len | pc | noun | verb =>
      simp only [serve, writeReg]
      split <;> exact .kept ⟨rfl, rfl⟩
    | status | result | errCode | errInfo0 | errInfo1 => exact .kept (.refl s)

/-- START_NV's two writes change the contents of cells 1 and 2 alone, to NOUN and VERB. -/
theorem hostCell_of_startNv {s t : State} {i : Nat} (hm : t.mem = (s.mem.write 1 s.noun).write 2 s.verb)
    (hr : t.resetCount = s.resetCount) (hc : t.hostCell i ≠ s.hostCell i) :
    i = 1 ∧ t.hostCell i = s.noun ∨ i = 2 ∧ t.hostCell i = s.verb := by
  by_cases h2 : i = 2
  · exact .inr ⟨h2, hostCell_of_read (by rw [hm, h2, read_write_same])⟩
  by_cases h1 : i = 1
  · exact .inl ⟨h1, hostCell_of_read (by rw [hm, h1, read_write_other _ _ (by decide), read_write_same])⟩
  · refine absurd ?_ hc
    rw [State.hostCell, hm, hr, read_write_other _ _ h2, read_write_other _ _ h1, State.hostCell]

/-- Settles O49: a running datapath writes the one cell of `oneCellPerStep`, the host those of `CellEffect`. -/
theorem cellsChangeByWritesAlone : Obligations.CellsChangeByWritesAlone := by
  intro s t i hd ht hc
  by_cases hr : s.status = .running
  · obtain ⟨hm, -, -, -, -, -, -, -, hcount⟩ := oneCellPerStep s t hr hd ht
    rcases hm with hm | ⟨d, v, hdest, hl, hm⟩
    · exact absurd (hostCell_congr hm hcount i) hc
    · have hi : i = d.toNat := Not.imp_symm (hostCell_of_write hm hcount) hc
      exact .inr (.inr ⟨hr, d, hdest, hi.symm, hi ▸ hl⟩)
  rcases host_step hr hd with ⟨-, e⟩ | ⟨act, rest, u, hh, hu, -, e⟩ <;> cases e.symm.trans ht
  · exact absurd rfl hc
  have k : CellEffect (s.serving rest) act t := hu ▸ serve_cellEffect act (s.serving rest)
  cases k with
  | kept h => exact absurd (h.hostCell i) hc
  | cell j v hi hb hm hcount =>
    have hij : i = j := Not.imp_symm (hostCell_of_write (s := s) hm hcount) hc
    subst hij
    exact .inl ⟨hi, hb, v, rest, hh, hostCell_of_read (by rw [hm, read_write_same])⟩
  | startNv v hi h2 hm hcount => exact .inr (.inl ⟨hi, hostCell_of_startNv hm hcount hc, v, rest, hh, h2⟩)

end Sys2Proof.Machine

/-!
PROOFS of the family 30_encoding: the opcode cell selects the instruction (O5), and decoding and encoding agree on a
slot's 256-bit number (O6, O4).
-/

namespace Sys2Proof

/-! ### What the opcode cell selects (R55, R57, R58) -/

theorem decode_add (a b d : Word) (fields : List Word) : decode (1 :: a :: b :: d :: fields) = .instr (.add a b d) :=
  rfl

theorem decode_mul (a b d : Word) (fields : List Word) : decode (2 :: a :: b :: d :: fields) = .instr (.mul a b d) :=
  rfl

theorem decode_hlt (fields : List Word) : decode (99 :: fields) = .instr .hlt := rfl

theorem decode_unknown {op : Word} (h1 : op ≠ 1) (h2 : op ≠ 2) (h3 : op ≠ 99) (fields : List Word) :
    decode (op :: fields) = .error (.unknownOpcode op) := by
  simp only [decode, decodeOpcode_unknown h1 h2 h3]

/-- Settles O5: the four rows of the opcode map. -/
theorem wholeOpcodeCellSelects : Obligations.WholeOpcodeCellSelects := by
  intro op fields
  refine ⟨?add, ?mul, ?hlt, fun h1 h2 h3 => decode_unknown h1 h2 h3 fields⟩
  case add => rintro rfl a b d; exact decode_add a b d fields
  case mul => rintro rfl a b d; exact decode_mul a b d fields
  case hlt => rintro rfl; exact decode_hlt fields

/-! ### Cells and the 256-bit number (R54) -/

/-- Every 256-bit number is that of the four cells it is cut into. -/
theorem exists_tableWord_eq {w : Nat} (hw : w < 2 ^ 256) : ∃ c0 c1 c2 c3, tableWord c0 c1 c2 c3 = w := by
  refine ⟨tableCell w 0, tableCell w 1, tableCell w 2, tableCell w 3, ?_⟩
  simp only [tableWord, tableCell, BitVec.toNat_ofNat, Nat.shiftRight_eq_div_pow]
  omega

/-- The opcode cell is the number's bits [255:192]. -/
theorem tableWord_div (c0 c1 c2 c3 : Word) : tableWord c0 c1 c2 c3 / 2 ^ 192 = c0.toNat := by
  rw [tableWord]
  omega

/-- A slot's number decodes to what its four cells decode to. -/
theorem decodeTableWord_tableWord (c0 c1 c2 c3 : Word) :
    decodeTableWord 256 (tableWord c0 c1 c2 c3) = (decode [c0, c1, c2, c3]).instr? := by
  rw [decodeTableWord_eq, tableCells_tableWord]

/-! ### Decoding and encoding -/

theorem encodeTableWord_of_encode {i : Instr} {c0 c1 c2 c3 : Word} (h : encode i = [c0, c1, c2, c3]) :
    encodeTableWord i = tableWord c0 c1 c2 c3 := by
  cases i <;> cases h <;> rfl

theorem tableCells_encodeTableWord (i : Instr) : tableCells 256 (encodeTableWord i) = encode i := by
  cases i <;> exact tableCells_tableWord ..

theorem decode_encode (i : Instr) : decode (encode i) = .instr i := by
  cases i with
  | add a b d => exact decode_add a b d []
  | mul a b d => exact decode_mul a b d []
  | hlt => exact decode_hlt [0, 0, 0]

theorem decodeTableWord_encodeTableWord (i : Instr) : decodeTableWord 256 (encodeTableWord i) = some i := by
  rw [decodeTableWord_eq, tableCells_encodeTableWord, decode_encode, DecodeResult.instr?]

/-- Settles O6: an instruction's number is cut back into its cells, and a number that decodes is that of cells which are
a HLT's by the first alone or are the instruction's own. -/
theorem encodeDecodeAgree : Obligations.EncodeDecodeAgree := by
  refine ⟨decodeTableWord_encodeTableWord, fun w hw i h => ?_⟩
  obtain ⟨c0, c1, c2, c3, rfl⟩ := exists_tableWord_eq hw
  rw [decodeTableWord_tableWord] at h
  rcases instr_of_cells h with ⟨rfl, rfl⟩ | ⟨hi, he⟩
  · rw [if_pos rfl, tableWord_div]
    rfl
  · rw [if_neg hi, encodeTableWord_of_encode he]

/-- Settles O4: the first two words are encodings, the third is a HLT by its opcode cell, and no row of the map has the
fourth's opcode cell. -/
theorem encodedWordsDecode : Obligations.EncodedWordsDecode := by
  refine ⟨decodeTableWord_encodeTableWord (.add 9 10 3), decodeTableWord_encodeTableWord (.mul 3 11 (-1)), ?_, ?_⟩
  · exact (decodeTableWord_tableWord 99 30 40 50).trans (congrArg _ (decode_hlt _))
  · exact (decodeTableWord_tableWord 4294967297 0 0 0).trans
      (congrArg _ (decode_unknown (by decide) (by decide) (by decide) _))

end Sys2Proof

/-!
PROOFS of the family 40_arithmetic: the wrapped sum and product (O16, O17), the next state of an ADD or MUL that
completes (O12, O13), and what the two leave unchanged (O15).
-/

namespace Sys2Proof.Machine

/-! ### `wrap64` (00_scope.md section 5.1) -/

theorem toInt_range (w : Word) : i64Min ≤ w.toInt ∧ w.toInt ≤ i64Max :=
  ⟨BitVec.le_toInt w, Int.le_of_lt_add_one BitVec.toInt_lt⟩

/-- `wrap64(z)` is the one `i64` congruent to `z` modulo 2^64. -/
theorem toInt_wrap64_eq_iff {z r : Int} :
    (wrap64 z).toInt = r ↔ i64Min ≤ r ∧ r ≤ i64Max ∧ (2 : Int) ^ 64 ∣ r - z := by
  rw [wrap64, BitVec.toInt_ofInt, Int.bmod_eq_iff (by decide), i64Min, i64Max]
  exact and_congr (by omega) (and_congr (by omega) (by norm_num))

theorem toInt_wrap64_of_fits {z : Int} (h0 : i64Min ≤ z) (h1 : z ≤ i64Max) : (wrap64 z).toInt = z :=
  toInt_wrap64_eq_iff.mpr ⟨h0, h1, by simp⟩

theorem dvd_toInt_wrap64_sub (z : Int) : (2 : Int) ^ 64 ∣ (wrap64 z).toInt - z :=
  (toInt_wrap64_eq_iff.mp rfl).2.2

/-! ### The ALU's sum (R71) -/

theorem aluAdd_eq_wrap64 (va vb : Word) : aluAdd va vb = wrap64 (va.toInt + vb.toInt) := rfl

theorem toInt_aluAdd_above {va vb : Word} (h : i64Max < va.toInt + vb.toInt) :
    (aluAdd va vb).toInt = va.toInt + vb.toInt - 2 ^ 64 := by
  have ha := toInt_range va
  have hb := toInt_range vb
  rw [aluAdd_eq_wrap64, toInt_wrap64_eq_iff]
  refine ⟨?_, ?_, -1, by ring⟩ <;> unfold i64Min i64Max at * <;> omega

theorem toInt_aluAdd_below {va vb : Word} (h : va.toInt + vb.toInt < i64Min) :
    (aluAdd va vb).toInt = va.toInt + vb.toInt + 2 ^ 64 := by
  have ha := toInt_range va
  have hb := toInt_range vb
  rw [aluAdd_eq_wrap64, toInt_wrap64_eq_iff]
  refine ⟨?_, ?_, 1, by ring⟩ <;> unfold i64Min i64Max at * <;> omega

/-- Settles O16: the result is the sum, or 2^64 less, or 2^64 more, as the sum fits or lies above or below; the signs
follow from the cells' range. -/
theorem additionWraps : Obligations.AdditionWraps := by
  refine ⟨fun va vb => ?_, by decide, by decide, by decide, by decide⟩
  have ha := toInt_range va
  have hb := toInt_range vb
  have fits := @toInt_wrap64_of_fits (va.toInt + vb.toInt)
  have above := @toInt_aluAdd_above va vb
  have below := @toInt_aluAdd_below va vb
  unfold i64Min i64Max at *
  refine ⟨by omega, by omega, fits, fun h => ?_, fun h => ?_⟩
  · rw [above h]
    omega
  · rw [below h]
    omega

/-! ### The ALU's product (R72) -/

theorem aluMul_eq_wrap64 (va vb : Word) : aluMul va vb = wrap64 (va.toInt * vb.toInt) := rfl

/-- The low 64 bits of a product do not depend on how its operands are read. -/
theorem aluMul_eq_mul (va vb : Word) : aluMul va vb = va * vb := by
  rw [aluMul_eq_wrap64, wrap64, BitVec.ofInt_mul, BitVec.ofInt_toInt, BitVec.ofInt_toInt]

/-- The least product is that of the least `i64` and the greatest. -/
theorem le_toInt_mul_toInt (va vb : Word) : -(2 : Int) ^ 126 + 2 ^ 63 ≤ va.toInt * vb.toInt := by
  obtain ⟨ha0, ha1⟩ := toInt_range va
  obtain ⟨hb0, hb1⟩ := toInt_range vb
  have low := mul_nonneg (sub_nonneg.mpr ha0) (sub_nonneg.mpr hb0)
  have high := mul_nonneg (sub_nonneg.mpr ha1) (sub_nonneg.mpr hb1)
  unfold i64Min i64Max at *
  linarith

/-- Settles O17: the result is the product's `wrap64`, and as a pattern the product of the two patterns. -/
theorem multiplicationWraps : Obligations.MultiplicationWraps := by
  intro va vb
  obtain ⟨h0, h1⟩ := toInt_range (aluMul va vb)
  exact ⟨le_toInt_mul_toInt va vb, BitVec.toInt_mul_toInt_le, dvd_toInt_wrap64_sub _, h0, h1, toInt_wrap64_of_fits,
    by rw [aluMul_eq_mul, BitVec.toNat_mul]⟩

/-! ### What ADD and MUL come to -/

/-- One of the checks of `Arith` fails: on the destination, on where the slot ends, or on an operand (R95). -/
def ArithCheckFails (a b d : Word) (s : State) : Prop :=
  s.destBad d = true ∨ d.toNat = s.len.toNat ∨ s.len.toNat ≤ s.pc.toNat + 3 ∨ s.operandBad a = true ∨
    s.operandBad b = true

theorem not_arithCheckFails_iff {a b d : Word} {s : State} :
    ¬ ArithCheckFails a b d s ↔
      s.destBad d = false ∧ d.toNat ≠ s.len.toNat ∧ s.pc.toNat + 3 < s.len.toNat ∧ s.operandBad a = false ∧
        s.operandBad b = false := by
  simp only [ArithCheckFails, not_or, Bool.not_eq_true, Nat.not_le, ne_eq]

/-- Where no check fails and the operand cells hold values, the result is stored (R68). -/
theorem arith_completes (f : Word → Word → Word) {a b d va vb : Word} {s : State} (h : ¬ ArithCheckFails a b d s)
    (hva : s.mem.read a.toNat = some va) (hvb : s.mem.read b.toNat = some vb) :
    arith f (some a) (some b) (some d) s =
      .ok () (memWrite d.toNat (f va vb) (s.beforeWrite f a b d va vb)) := by
  obtain ⟨hd, hl, h3, ha, hb⟩ := not_arithCheckFails_iff.mp h
  rw [arith_eq, if_neg h3.not_gt, if_neg h3.ne]
  simp [hd, ha, hva, hb, hvb, hl]

/-- The ends of `Arith` where its three fields hold values: a result stored at `d` and no check failing, a fault raised
and one failing, or a stop. -/
inductive ArithEnd (a b d : Word) (s : State) : Res Unit → Prop where
  | stored (v : Word) (u : State) (hu : Scratch s u) (h : ¬ ArithCheckFails a b d s) :
    ArithEnd a b d s (.ok () (memWrite d.toNat v u))
  | raised (g : HwFault) (u : State) (hu : Scratch s u) (h : ArithCheckFails a b d s) :
    ArithEnd a b d s (.raise g u)
  | stuck (g : Fault) : ArithEnd a b d s (.stop g)

theorem arith_end (f : Word → Word → Word) (a b d : Word) (s : State) :
    ArithEnd a b d s (arith f (some a) (some b) (some d) s) := by
  have k1 := scratch_afterDest d s
  rw [arith_eq]
  split
  next h => exact .raised _ _ (.refl s) (.inr (.inr (.inl h.le)))
  split
  next h => exact .raised _ _ (.refl s) (.inr (.inr (.inl h.ge)))
  split
  next h => exact .raised _ _ k1 (.inl h)
  split
  next h => exact .raised _ _ (k1.trans (scratch_afterField ..)) (.inr (.inr (.inr (.inl h))))
  split
  next => exact .stuck _
  split
  next h =>
    exact .raised _ _ ((k1.trans (scratch_afterValue ..)).trans (scratch_afterField ..))
      (.inr (.inr (.inr (.inr h))))
  split
  next => exact .stuck _
  split
  next h => exact .raised _ _ (scratch_beforeWrite ..) (.inr (.inl h))
  next h1 h2 hd ha _ _ _ hb _ _ _ hl =>
    refine .stored _ _ (scratch_beforeWrite ..) (not_arithCheckFails_iff.mpr ⟨?_, hl, by omega, ?_, ?_⟩)
    · exact Bool.eq_false_of_not_eq_true hd
    · exact Bool.eq_false_of_not_eq_true ha
    · exact Bool.eq_false_of_not_eq_true hb

/-! ### The next state -/

/-- The seven transactions of R49 but for the fetch, which comes before `exec`. -/
def arithTransactions (p : Nat) (a b d va vb r : Word) : List Transaction :=
  [{ addr := p + 3, we := false, data := d },
   { addr := p + 1, we := false, data := a }, { addr := a.toNat, we := false, data := va },
   { addr := p + 2, we := false, data := b }, { addr := b.toNat, we := false, data := vb },
   { addr := d.toNat, we := true, data := r }]

/-- The state after an ADD or MUL that stores the result `r` (R49, R69, R70, R81, R116). -/
def State.afterArith (a b d va vb r : Word) (s : State) : State :=
  { s with
    mem := s.mem.write d.toNat r
    pc := s.pc + 4
    status := s.statusAfterProceed
    latch := { s.latch with a := a, b := b, d := d, va := va, vb := vb, r := r }
    port := s.port ++ arithTransactions s.pc.toNat a b d va vb r }

theorem latch_beforeWrite (f : Word → Word → Word) (a b d va vb : Word) (s : State) :
    (s.beforeWrite f a b d va vb).latch =
      { s.latch with a := a, b := b, d := d, va := va, vb := vb, r := f va vb } := rfl

theorem port_beforeWrite (f : Word → Word → Word) (a b d va vb : Word) (s : State) :
    (s.beforeWrite f a b d va vb).port ++ [{ addr := d.toNat, we := true, data := f va vb }] =
      s.port ++ arithTransactions s.pc.toNat a b d va vb (f va vb) := by
  simp [arithTransactions, State.beforeWrite, State.afterAlu, State.afterValue, State.afterField, State.afterDest,
    Operand.offset]

theorem proceed_memWrite_beforeWrite (f : Word → Word → Word) (a b d va vb : Word) (s : State) :
    proceed (memWrite d.toNat (f va vb) (s.beforeWrite f a b d va vb)) = s.afterArith a b d va vb (f va vb) := by
  rw [State.afterArith, ← latch_beforeWrite, ← port_beforeWrite, (scratch_beforeWrite f a b d va vb s).same]
  rfl

/-- Addresses that name cells of the program pass every check. -/
theorem not_arithCheckFails_of_below {a b d : Word} {s : State} (h3 : s.pc.toNat + 3 < s.len.toNat)
    (hd : 0 ≤ d.toInt ∧ d.toInt < (s.len.toNat : Int)) (ha : 0 ≤ a.toInt ∧ a.toInt < (s.len.toNat : Int))
    (hb : 0 ≤ b.toInt ∧ b.toInt < (s.len.toNat : Int)) : ¬ ArithCheckFails a b d s :=
  not_arithCheckFails_iff.mpr ⟨destBad_false_iff.mpr ⟨hd.1, hd.2.le⟩, (operand_lt (operandBad_false_iff.mpr hd)).ne,
    h3, operandBad_false_iff.mpr ha, operandBad_false_iff.mpr hb⟩

theorem toOutcome_arith_completes (f : Word → Word → Word) {a b d va vb : Word} {s : State}
    (h : ¬ ArithCheckFails a b d s) (hva : s.mem.read a.toNat = some va) (hvb : s.mem.read b.toNat = some vb) :
    (arith f (some a) (some b) (some d) s).toOutcome = .next (s.afterArith a b d va vb (f va vb)) := by
  rw [arith_completes f h hva hvb, toOutcome_ok, proceed_memWrite_beforeWrite]

/-- Settles O12: ADD is `Arith` with the wrapped sum. -/
theorem addCompletes : Obligations.AddCompletes := by
  intro a b d va vb s h3 hd0 hd1 ha0 ha1 hb0 hb1 hva hvb
  have h := not_arithCheckFails_of_below h3 ⟨hd0, hd1⟩ ⟨ha0, ha1⟩ ⟨hb0, hb1⟩
  exact toOutcome_arith_completes aluAdd h hva hvb

/-- Settles O13: MUL is `Arith` with the wrapped product. -/
theorem mulCompletes : Obligations.MulCompletes := by
  intro a b d va vb s h3 hd0 hd1 ha0 ha1 hb0 hb1 hva hvb
  have h := not_arithCheckFails_of_below h3 ⟨hd0, hd1⟩ ⟨ha0, ha1⟩ ⟨hb0, hb1⟩
  exact toOutcome_arith_completes aluMul h hva hvb

/-! ### The frame -/

/-- Settles O15: `Arith` ends with one cell stored, or with a fault raised and nothing stored; what else it changes
before is scratch. -/
theorem arithFrame : Obligations.ArithFrame := by
  intro i a b d s t h ht
  obtain ⟨f, e⟩ := exec_eq_arith h s
  have k := arith_end f a b d s
  rw [e] at ht
  generalize arith f (some a) (some b) (some d) s = x at k ht
  cases k with
  | stored v u hu hc =>
    cases ht
    rw [hu.same]
    exact ⟨rfl, rfl, rfl, rfl, rfl, rfl, rfl, rfl, rfl, rfl, rfl, hu.op, fun _ hx => read_write_other _ v hx,
      fun hbad => absurd hbad hc, fun _ _ _ _ _ => ⟨rfl, rfl, rfl, rfl, rfl⟩⟩
  | raised g u hu hc =>
    cases ht
    rw [hu.same]
    exact ⟨rfl, rfl, rfl, rfl, rfl, rfl, rfl, rfl, rfl, rfl, rfl, hu.op, fun _ _ => rfl, fun _ => ⟨rfl, rfl, rfl⟩,
      fun hd hl h3 ha hb => absurd hc (not_arithCheckFails_iff.mpr ⟨hd, hl, h3, ha, hb⟩)⟩
  | stuck g => cases ht

end Sys2Proof.Machine

/-!
PROOFS of the family 41_halt_and_sequencing: the step is the decoded instruction (O1), also that of a slot placed for it
(O7); HLT (O19, O20); the end of the scan (O21); PC after each end (O26); and every run ends (O23).
-/

namespace Sys2Proof.Machine

/-! ### The decoded instruction -/

/-- Where an instruction is decoded, dispatch runs it (R77). -/
theorem dispatchSlot_of_decode {s : State} {i : Instr} (h : decode s.slotCells = .instr i) :
    dispatchSlot s = exec i s := by
  rw [dispatchSlot, h]

/-- Settles O1: the slot decodes to something, so its opcode cell is there for the fetch, and the fetch changes no
cell of the slot. -/
theorem stepRunsDecodedInstruction : Obligations.StepRunsDecodedInstruction := by
  intro s i hat hi
  obtain ⟨op, hcell, -⟩ := decode_slot hi
  obtain ⟨hlt, hop⟩ := programCell_some hcell
  refine ⟨op, hop, ?_⟩
  rw [step_atInstruction hat, stepAtPc_some (s := s.tick) hlt hop, dispatchSlot_of_decode]
  rw [fetched_slotCells, tick_slotCells, hi]

/-! ### A slot placed where the next step fetches -/

/-- The cells below a placed slot are left alone. -/
theorem read_placeSlot_below (cells : List Word) (m : Memory) {k p : Nat} (h : k < p) :
    (placeSlot p cells m).read k = m.read k := by
  induction cells generalizing p m with
  | nil => rfl
  | cons c cs ih => rw [placeSlot, ih _ (Nat.lt_succ_of_lt h), read_write_other _ _ h.ne]

/-- A slot placed below LEN is what is found at its position. -/
theorem cellsFrom_placeSlot {s : State} (cells : List Word) {m : Memory} {p : Nat} (hm : s.mem = placeSlot p cells m)
    (hl : p + cells.length ≤ s.len.toNat) : s.cellsFrom cells.length p = cells := by
  induction cells generalizing p m with
  | nil => rfl
  | cons c cs ih =>
    rw [List.length_cons] at hl
    have hc : s.programCell p = some c := by
      rw [programCell_of_lt (by omega), hm, placeSlot, read_placeSlot_below _ _ (Nat.lt_succ_self p), read_write_same]
    rw [List.length_cons, State.cellsFrom, hc]
    exact congrArg _ (ih hm (by omega))

theorem length_encode (i : Instr) : (encode i).length = Config.stride := by cases i <;> rfl

/-- An instruction's slot, placed where it fits at PC, is the slot at PC. -/
theorem slotCells_placeNext {s : State} (i : Instr) (h : s.pc.toNat + 4 < 2 ^ 64) :
    (placeNext (encode i) s).slotCells = encode i := by
  rw [State.slotCells, placeNext_pc _ h, ← length_encode i]
  refine cellsFrom_placeSlot (m := s.mem) _ ?_ ?_
  · rw [← placeAt_eq h]
    rfl
  · rw [length_encode]
    exact placeNext_len _ h

/-- Placing a slot drops a reset that is due (log entry 12). -/
theorem placeNext_resetDue (cells : List Word) (s : State) : (placeNext cells s).resetDue = false := by
  have hr : (placeNext cells s).resets = if s.resetDue then [] else s.resets := rfl
  cases h : s.resetDue with
  | true => rw [State.resetDue, hr, h, if_pos rfl]
  | false =>
    rw [State.resetDue, hr, if_neg (by simp [h])]
    exact h

/-- LEN covers a placed slot, so BOUND is above PC, and the next transition executes the slot. -/
theorem atInstruction_placeNext {s : State} (cells : List Word) (h : s.pc.toNat + 4 < 2 ^ 64) :
    AtInstruction (placeNext cells s) := by
  refine ⟨rfl, placeNext_resetDue cells s, fun _ => ?_⟩
  have hl := placeNext_len cells h
  rw [bound_eq, placeNext_pc cells h]
  omega

/-- Settles O7: the placed slot is at PC and decodes to the instruction, whose opcode is the slot's first cell. -/
theorem storedSlotRunsNext : Obligations.StoredSlotRunsNext := by
  intro s i h
  have hw : s.withFetchWord 256 (encodeTableWord i) = placeNext (encode i) s := by
    rw [State.withFetchWord, tableCells_encodeTableWord]
  rw [hw]
  have hat := atInstruction_placeNext (encode i) h
  have hslot := slotCells_placeNext i h
  obtain ⟨op, hop, hstep⟩ := stepRunsDecodedInstruction _ i hat (by rw [hslot, decode_encode])
  have hlt : (placeNext (encode i) s).pc.toNat < (placeNext (encode i) s).len.toNat := by
    have hl := placeNext_len (encode i) h
    rw [placeNext_pc _ h]
    omega
  have hfirst : (encode i).head? = some op := by
    rw [← hslot, slotCells_eq ((programCell_of_lt hlt).trans hop), List.head?_cons]
  rw [hstep]
  cases i with
  | add | mul | hlt =>
    cases hfirst
    rfl

/-! ### HLT and the end of the scan -/

/-- Settles O19: HLT is a successful end with STATUS HALTED. -/
theorem hltCompletes : Obligations.HltCompletes := by
  intro s v h0
  exact finish_some .halted h0

/-- Settles O20: a HLT that does not stop the model has found a value in cell 0, and `HltCompletes` gives its state. -/
theorem hltFrame : Obligations.HltFrame := by
  intro s t ht
  cases h0 : s.mem.read 0 with
  | none => cases ht.symm.trans (finish_none .halted h0)
  | some v =>
    cases ht.symm.trans (hltCompletes s v h0)
    exact ⟨rfl, rfl, rfl, rfl, rfl, rfl, rfl, rfl, rfl, rfl, rfl, rfl, rfl, rfl, rfl, rfl, rfl, rfl⟩

/-- A run whose PC has come to BOUND decodes nothing (R79). -/
theorem step_atBound {s : State} (hr : s.status = .running) (hd : s.resetDue = false) (hm : s.mode = .run)
    (hb : s.bound ≤ s.pc.toNat) : step s = finish .ended s.tick := by
  simp [step_running hr hd, running, hm, hb]

/-- Settles O21: the scan is over, a successful end with STATUS ENDED. -/
theorem runEndsAtBound : Obligations.RunEndsAtBound := by
  intro s v hr hd hm hb h0
  rw [step_atBound hr hd hm hb]
  exact finish_some (s := s.tick) .ended h0

/-! ### PC after each end -/

/-- What PC is after a running datapath's step, by the STATUS it comes to (R81, R83). -/
theorem RunningStep.pc {s t : State} (hr : s.status = .running) (h : RunningStep s (.next t)) :
    (t.status = .running ∨ t.status = .idle → t.pc = s.pc + 4) ∧
    (t.status = .halted → t.pc = s.pc ∧ s.mem.read s.pc.toNat = some 99) ∧
    (t.status = .ended → t.pc = s.pc ∧ (Inv s → t.pc.toNat = s.bound)) ∧
    (t.status = .fault → t.pc = s.pc) := by
  cases h with
  | ended v hm hb =>
    exact ⟨nofun, nofun, fun _ => ⟨rfl, fun hi => Nat.le_antisymm (hi.pcInRun hr hm).2 hb⟩, nofun⟩
  | halted u v _ hu _ hop => exact ⟨nofun, fun _ => ⟨hu.pc, hop⟩, nofun, nofun⟩
  | raised g u _ hu => exact ⟨nofun, nofun, nofun, fun _ => hu.pc⟩
  | stored d u _ hu =>
    have hpc : (proceed (memWrite d.toNat u.latch.r u)).pc = s.pc + 4 := congrArg (· + 4) hu.pc
    rw [hu.proceed_status]
    rcases statusAfterProceed_cases hr with ⟨-, e⟩ | ⟨-, e⟩ <;> rw [e] <;>
      exact ⟨fun _ => hpc, nofun, nofun, nofun⟩

/-- A command that faults in IDLE leaves PC (R83). -/
theorem Served.pc_of_fault {s t : State} (h : Served s t) (hi : s.status = .idle) (hf : t.status = .fault) :
    t.pc = s.pc := by
  cases h with
  | data | same | cell | len | noun | verb => rfl
  | pc => cases hi.symm.trans hf
  | clear => cases hf
  | start =>
    rcases startCommand_cases s with ⟨-, e⟩ | ⟨-, e⟩ <;> rw [e] at hf ⊢
    · rfl
    · cases hf
  | startNv =>
    rcases startNvCommand_cases s with ⟨-, e⟩ | ⟨-, -, e⟩ | ⟨-, -, e⟩ <;> rw [e] at hf ⊢
    · rfl
    · rfl
    · cases hf
  | step => rcases stepCommand_cases s with ⟨-, e⟩ | ⟨-, e⟩ <;> rw [e] <;> rfl

/-- Settles O26: the datapath's step while RUNNING, the host's turn in IDLE. -/
theorem pcAfterEachEnd : Obligations.PcAfterEachEnd := by
  intro s t hd ht
  refine ⟨fun hr => RunningStep.pc hr (ht ▸ running_step hr hd), fun hi hf => ?_⟩
  rcases host_step (by simp [hi]) hd with ⟨-, e⟩ | ⟨act, rest, u, -, -, hu, e⟩ <;> cases e.symm.trans ht
  · rfl
  · exact hu.pc_of_fault (s := s.serving rest) hi hf

/-! ### Every run ends -/

/-- A write keeps the program's cells loaded. -/
theorem Loaded.write {s t : State} (h : Loaded s) {i : Nat} {v : Word} (hl : t.len = s.len)
    (hm : t.mem = s.mem.write i v) : Loaded t := by
  intro k hk
  rw [hm, read_write]
  split
  · rfl
  · exact h k (hl ▸ hk)

/-- A loaded datapath, running, that no reset will interrupt: the premises of R84. -/
structure Underway (s : State) : Prop where
  inv : Inv s
  loaded : Loaded s
  running : s.status = .running
  resets : s.resets = []

/-- The slots from PC to BOUND (R79). -/
def State.slotsLeft (s : State) : Nat := (s.bound - s.pc.toNat) / 4

/-- The command in progress, by its mode, is over: a run's end, or a single step that proceeded (R116, R127). -/
def CommandOver (m : Mode) (t : State) : Prop := RunOver t ∨ m = .single ∧ t.status = .idle

/-- In a run the next slot is one slot nearer to BOUND; PC does not wrap on the way (R81). -/
theorem slotsLeft_of_pc_add_four {s t : State} (h : Inv s) (hat : AtInstruction s) (hm : s.mode = .run)
    (hl : t.len = s.len) (hpc : t.pc = s.pc + 4) : t.slotsLeft + 1 = s.slotsLeft := by
  obtain ⟨-, -, hmax⟩ := h.of_running hat.1
  have h3 := slot_inside_of_run h hat hm
  have h4 := (h.pcInRun hat.1 hm).1
  have hw : t.pc.toNat = (s.pc.toNat + 4) % 2 ^ 64 := by rw [hpc, BitVec.toNat_add]; rfl
  unfold Config.maxDepth at hmax
  rw [State.slotsLeft, State.slotsLeft, bound_eq, bound_eq, hl, hw]
  omega

/-- A step in a loaded program does not stop the model: the command is over, or a run goes on with one slot less before
it. -/
theorem Underway.step {s : State} (h : Underway s) :
    ∃ t, Machine.step s = .next t ∧ t.len = s.len ∧ t.mode = s.mode ∧
      (CommandOver s.mode t ∨ Underway t ∧ t.slotsLeft + 1 = s.slotsLeft) := by
  have k := running_step h.running (by rw [State.resetDue, h.resets])
  generalize hst : Machine.step s = x at k
  cases k with
  | ended v => exact ⟨_, rfl, rfl, rfl, .inl (.inl (.inl (.inr rfl)))⟩
  | halted u v _ hu => exact ⟨_, rfl, hu.len, hu.mode, .inl (.inl (.inl (.inl rfl)))⟩
  | raised g u _ hu => exact ⟨_, rfl, hu.len, hu.mode, .inl (.inl (.inr rfl))⟩
  | stored d u hat hu =>
    refine ⟨_, rfl, hu.len, hu.mode, ?_⟩
    have hs := hu.proceed_status d.toNat u.latch.r
    rcases statusAfterProceed_cases h.running with ⟨hm, e⟩ | ⟨hm, e⟩ <;> rw [e] at hs
    · refine .inr ⟨⟨stepKeepsInvariant s _ h.inv hst, ?_, hs, ?_⟩, ?_⟩
      · exact h.loaded.write hu.len (congrArg (·.write d.toNat u.latch.r) hu.mem)
      · exact hu.resets.trans (by rw [State.tick, h.resets])
      · exact slotsLeft_of_pc_add_four h.inv hat hm hu.len (congrArg (· + 4) hu.pc)
    · exact .inl (.inr ⟨hm, hs⟩)
  | stuck i hnone hi =>
    have hpos := (h.inv.of_running h.running).1.1
    have hsome := h.loaded i (by omega)
    simp [hnone] at hsome

/-- The command is over after at most one transition for each slot left and one for the end of the scan. -/
theorem Underway.over {s : State} (h : Underway s) :
    ∃ k t, k ≤ s.slotsLeft + 1 ∧ Sys2Proof.core.run k s = .next t ∧ CommandOver s.mode t ∧ t.len = s.len := by
  obtain ⟨t, hst, hl, hm, hover | ⟨ht, hleft⟩⟩ := h.step
  · exact ⟨1, t, by omega, run_succ hst 0, hover, hl⟩
  · obtain ⟨k, u, hk, hrun, hu, hul⟩ := ht.over
    exact ⟨k + 1, u, by omega, (run_succ hst k).trans hrun, hm ▸ hu, hul.trans hl⟩
termination_by s.slotsLeft

/-- Settles O23: the slots left are at most those of the whole program. -/
theorem everyRunEnds : Obligations.EveryRunEnds := by
  intro s hi hl hr hres
  obtain ⟨k, t, hk, hrun, hover, hlen⟩ := Underway.over ⟨hi, hl, hr, hres⟩
  have hle : s.slotsLeft ≤ s.len.toNat / 4 := by
    rw [State.slotsLeft, bound_eq]
    omega
  exact ⟨k, t, hk, by omega, hrun, hover, hlen⟩

end Sys2Proof.Machine

/-!
PROOFS of the family 60_exceptions: which fault the fetch and the decoder (O2) and ADD and MUL (O14) come to, what a
step that faults changes (O30), and that nothing executes in FAULT (O31).
-/

namespace Sys2Proof.Machine

/-! ### Which fault is met first (R95) -/

/-- Settles O2: the three branches of the fetch, and dispatch of an opcode that is not in the table. -/
theorem fetchFaultsInOrder : Obligations.FetchFaultsInOrder := by
  intro s hat
  rw [step_atInstruction hat]
  refine ⟨stepAtPc_above (s := s.tick), stepAtPc_at (s := s.tick), stepAtPc_none (s := s.tick), ?_⟩
  intro hlt op hop h1 h2 h99
  have hcell : (s.tick.fetched op).programCell (s.tick.fetched op).pc.toNat = some op :=
    (programCell_of_lt hlt).trans hop
  rw [stepAtPc_some (s := s.tick) hlt hop, dispatchSlot_eq hcell, if_neg h1, if_neg h2, if_neg h99]
  rfl

theorem Scratch.result {s t : State} (h : Scratch s t) : t.result = s.result := by rw [h.same]

/-- The outcome is the state after the fault `g` with its payload, MEM, PC, RESULT and LEN being those of `s` (R68,
R96). -/
def FaultsWith (s : State) (o : Host.Outcome State Fault Refusal) (g : HwFault) : Prop :=
  ∃ t, o = .next t ∧ t.status = .fault ∧ t.errCode = g.kind ∧ t.errInfo0 = g.info0 ∧ t.errInfo1 = g.info1 ∧
    t.mem = s.mem ∧ t.pc = s.pc ∧ t.result = s.result ∧ t.len = s.len

/-- A fault raised after nothing but latches and transactions keeps MEM, PC, RESULT and LEN. -/
theorem faultsWith_of_raise {s u : State} {g : HwFault} {o : Host.Outcome State Fault Refusal}
    (ho : o = (Res.raise g u : Res Unit).toOutcome) (hu : Scratch s u) : FaultsWith s o g :=
  ⟨_, ho, rfl, rfl, rfl, rfl, hu.mem, hu.pc, hu.result, hu.len⟩

/-- One check in the order of R95: where it fails (`c`, in the statement's words `c'`) its fault is the outcome, else
what comes after it decides. -/
theorem faultsWith_or_else {c c' P : Prop} [Decidable c] [Decidable c'] {s u : State} {g : HwFault} {x : Res Unit}
    {o : Host.Outcome State Fault Refusal} (hc : c ↔ c') (hu : Scratch s u)
    (ho : o = (if c then .raise g u else x).toOutcome) (hx : o = x.toOutcome → P) :
    if c' then FaultsWith s o g else P := by
  by_cases h : c
  · rw [if_pos (hc.mp h)]
    exact faultsWith_of_raise (by rw [ho, if_pos h]) hu
  · rw [if_neg (mt hc.mpr h)]
    exact hx (by rw [ho, if_neg h])

/-- Settles O14: the checks of `arith_eq`, one after the other. -/
theorem arithFaultsInOrder : Obligations.ArithFaultsInOrder := by
  intro i a b d s h faultsWith
  obtain ⟨f, e⟩ := exec_eq_arith h s
  rw [arith_eq] at e
  have k1 := scratch_afterDest d s
  refine faultsWith_or_else .rfl (.refl s) e fun e => ?_
  refine faultsWith_or_else .rfl (.refl s) e fun e => ?_
  refine faultsWith_or_else destBad_iff k1 e fun e => ?_
  refine faultsWith_or_else operandBad_iff (k1.trans (scratch_afterField ..)) e fun e => ?_
  cases hva : s.mem.read a.toNat with
  | none =>
    simp only [hva] at e
    exact (if_pos rfl).mpr e
  | some va =>
    simp only [hva] at e
    rw [if_neg (Option.some_ne_none va)]
    have k2 := k1.trans (scratch_afterValue .first a va _)
    refine faultsWith_or_else operandBad_iff (k2.trans (scratch_afterField ..)) e fun e => ?_
    cases hvb : s.mem.read b.toNat with
    | none =>
      simp only [hvb] at e
      exact (if_pos rfl).mpr e
    | some vb =>
      simp only [hvb] at e
      rw [if_neg (Option.some_ne_none vb)]
      by_cases hl : d.toNat = s.len.toNat
      · rw [if_pos hl] at e ⊢
        exact faultsWith_of_raise (hl ▸ e) (scratch_beforeWrite f a b d va vb s)
      · rw [if_neg hl, toOutcome_ok, proceed_memWrite_beforeWrite] at e
        rw [if_neg hl]
        exact ⟨_, e, rfl, rfl, rfl⟩

/-! ### What a fault changes (R96) -/

/-- No fault has the code that stands for no fault (R18, R87). -/
theorem HwFault.kind_ne_none (g : HwFault) : g.kind ≠ .none := by cases g <;> nofun

/-- A running datapath comes to FAULT by raising a fault, with nothing done before it but latches and transactions. -/
theorem RunningStep.eq_takeFault {s t : State} (hr : s.status = .running) (h : RunningStep s (.next t))
    (hf : t.status = .fault) : ∃ g u, Touched s u ∧ t = takeFault g u := by
  cases h with
  | raised g u _ hu => exact ⟨g, u, hu, rfl⟩
  | ended | halted => cases hf
  | stored d u _ hu =>
    rw [hu.proceed_status] at hf
    rcases statusAfterProceed_cases hr with ⟨-, e⟩ | ⟨-, e⟩ <;> cases e.symm.trans hf

/-- Settles O30: such a step takes a fault in a state that differs in latches, the transaction record and the reset
delays. -/
theorem faultsArePrecise : Obligations.FaultsArePrecise := by
  intro s t hr hd ht hf
  obtain ⟨g, u, hu, rfl⟩ := RunningStep.eq_takeFault hr (ht ▸ running_step hr hd) hf
  exact ⟨g.kind_ne_none, hu.mem, hu.len, hu.pc, hu.noun, hu.verb, hu.result, hu.mode, hu.memDepth, hu.host,
    hu.hostData, hu.freeCount, hu.resetCount, hu.resets⟩

/-! ### The host in FAULT (R97, R110) -/

/-- In HALTED, ENDED and FAULT a host action is CLEAR, or it changes only what the host port returned and the count of
free values (R22, R23, R51). -/
theorem serve_of_stopped (act : HostAction) {s : State} (hr : s.status ≠ .running) (hi : s.status ≠ .idle) :
    (∃ v, act = .writeReg .cmd v ∧ v.toNat % 8 = 4 ∧ serve act s = clearCommand s) ∨
      ∃ x n, serve act s = { s with hostData := x, freeCount := n } := by
  cases act with
  | readReg reg => exact .inr ⟨_, s.freeCount, rfl⟩
  | readCell i =>
    rw [serve, hostReadCell]
    split
    · exact .inr ⟨_, s.freeCount, rfl⟩
    · exact .inr ⟨_, _, rfl⟩
  | writeCell i v => exact .inr ⟨s.hostData, s.freeCount, if_neg fun h => hi h.1⟩
  | writeReg reg v =>
    cases reg with
    | cmd =>
      rcases writeCmd_cases v hr with ⟨h4, e⟩ | ⟨h4, -⟩
      · exact .inl ⟨v, rfl, h4, e⟩
      · have hv : v.toNat % 8 = 0 ∨ 5 ≤ v.toNat % 8 ∨ 1 ≤ v.toNat % 8 ∧ v.toNat % 8 ≤ 3 := by omega
        exact .inr ⟨s.hostData, s.freeCount, writeCmd_ignored (hv.imp_right (.imp_right fun h => ⟨hi, h⟩))⟩
    | len | pc | noun | verb => exact .inr ⟨s.hostData, s.freeCount, if_neg hi⟩
    | status | result | errCode | errInfo0 | errInfo1 => exact .inr ⟨s.hostData, s.freeCount, rfl⟩

/-- Settles O31: in FAULT it is the host's turn, and of its actions CLEAR alone touches the state. -/
theorem faultIsTerminal : Obligations.FaultIsTerminal := by
  intro s t hf hd ht
  have hr : s.status ≠ .running := by simp [hf]
  have hi : s.status ≠ .idle := by simp [hf]
  rcases host_step hr hd with ⟨-, e⟩ | ⟨act, rest, u, hh, hu, -, e⟩ <;> cases e.symm.trans ht
  · exact .inl ⟨hf, rfl, rfl, rfl, rfl, rfl, rfl, rfl⟩
  · rcases serve_of_stopped act (s := s.serving rest) hr hi with ⟨v, rfl, h4, e⟩ | ⟨x, n, e⟩ <;> rw [e] at hu
    · exact .inr ⟨v, rest, hh, h4, hu ▸ rfl⟩
    · rw [hu]
      exact .inl ⟨hf, rfl, rfl, rfl, rfl, rfl, rfl, rfl⟩

end Sys2Proof.Machine

/-!
PROOFS of the family 70_reset_and_hazards: a loaded run never stops the model (O34), the counts of R129 (O25), the load
sequence (O50), reset in any state (O37), and the four commands (O39 to O42).
-/

namespace Sys2Proof.Machine

/-! ### A loaded program never stops the model (R111, R119) -/

/-- `Loaded` is about MEM and LEN alone. -/
theorem Loaded.congr {s t : State} (h : Loaded s) (hl : t.len = s.len) (hm : t.mem = s.mem) : Loaded t := by
  intro k hk
  rw [hm]
  exact h k (hl ▸ hk)

/-- A running datapath's step keeps the program's cells loaded: it keeps LEN, and MEM but for one written cell. -/
theorem Loaded.runningStep {s t : State} (h : Loaded s) (k : RunningStep s (.next t)) : Loaded t := by
  cases k with
  | ended v => exact h.congr rfl rfl
  | raised g u _ hu => exact h.congr hu.len hu.mem
  | halted u v _ hu => exact h.congr hu.len hu.mem
  | stored d u _ hu => exact h.write hu.len (congrArg (·.write d.toNat u.latch.r) hu.mem)

/-- In a loaded program of a legal length, every cell that the datapath can stop at holds a value. -/
theorem Loaded.read_ne_none {s : State} (h : Loaded s) (hl : LenLegal s) {i : Nat} (hi : i < s.len.toNat ∨ i = 0) :
    s.mem.read i ≠ none := by
  obtain ⟨hpos, -⟩ := hl
  exact Option.isSome_iff_ne_none.mp (h i (by omega))

/-- Settles O34: the one step without a next state is the stop at an unwritten cell, and a loaded program has none. -/
theorem loadedRunNeverStops : Obligations.LoadedRunNeverStops := by
  intro s hinv hl hr hd
  have k := running_step hr hd
  generalize step s = x at k
  cases x with
  | next t => exact ⟨t, rfl, hl.runningStep k⟩
  | fault g =>
    cases k with
    | stuck i hnone hi => exact absurd hnone (hl.read_ne_none (hinv.of_running hr).1 hi)
  | refused r => cases k

/-! ### Counting reads and writes (R129) -/

@[simp] theorem log_reads (x : Transaction) (s : State) : (s.log x).reads = s.reads + if x.we then 0 else 1 := by
  cases h : x.we <;> simp [State.reads, h]

@[simp] theorem log_writes (x : Transaction) (s : State) : (s.log x).writes = s.writes + if x.we then 1 else 0 := by
  cases h : x.we <;> simp [State.writes, h]

@[simp] theorem latched_reads (f : Latches → Latches) (s : State) : (s.latched f).reads = s.reads := rfl
@[simp] theorem latched_writes (f : Latches → Latches) (s : State) : (s.latched f).writes = s.writes := rfl
@[simp] theorem takeFault_reads (g : HwFault) (s : State) : (takeFault g s).reads = s.reads := rfl
@[simp] theorem takeFault_writes (g : HwFault) (s : State) : (takeFault g s).writes = s.writes := rfl
@[simp] theorem proceed_reads (s : State) : (proceed s).reads = s.reads := rfl
@[simp] theorem proceed_writes (s : State) : (proceed s).writes = s.writes := rfl

@[simp] theorem memWrite_reads (i : Nat) (v : Word) (s : State) : (memWrite i v s).reads = s.reads :=
  log_reads _ { s with mem := s.mem.write i v }

@[simp] theorem memWrite_writes (i : Nat) (v : Word) (s : State) : (memWrite i v s).writes = s.writes + 1 :=
  log_writes _ { s with mem := s.mem.write i v }

@[simp] theorem afterDest_reads (d : Word) (s : State) : (s.afterDest d).reads = s.reads + 1 := by
  simp [State.afterDest]

@[simp] theorem afterDest_writes (d : Word) (s : State) : (s.afterDest d).writes = s.writes := by
  simp [State.afterDest]

@[simp] theorem afterField_reads (o : Operand) (a : Word) (s : State) : (s.afterField o a).reads = s.reads + 1 := by
  simp [State.afterField]

@[simp] theorem afterField_writes (o : Operand) (a : Word) (s : State) : (s.afterField o a).writes = s.writes := by
  simp [State.afterField]

@[simp] theorem afterValue_reads (o : Operand) (a v : Word) (s : State) :
    (s.afterValue o a v).reads = s.reads + 2 := by
  simp [State.afterValue]

@[simp] theorem afterValue_writes (o : Operand) (a v : Word) (s : State) :
    (s.afterValue o a v).writes = s.writes := by
  simp [State.afterValue]

@[simp] theorem beforeWrite_reads (f : Word → Word → Word) (a b d va vb : Word) (s : State) :
    (s.beforeWrite f a b d va vb).reads = s.reads + 5 := by
  simp [State.beforeWrite, State.afterAlu]

@[simp] theorem beforeWrite_writes (f : Word → Word → Word) (a b d va vb : Word) (s : State) :
    (s.beforeWrite f a b d va vb).writes = s.writes := by
  simp [State.beforeWrite, State.afterAlu]

/-- A transition starts with no transaction, and the fetch reads one cell. -/
theorem fetched_tick_reads (op : Word) (s : State) : (s.tick.fetched op).reads = 1 := rfl
theorem fetched_tick_writes (op : Word) (s : State) : (s.tick.fetched op).writes = 0 := rfl

/-- The counts of R129 for an ADD or MUL at position `p` whose fields are there, by the state `t` it comes to. -/
def ArithCounts (p : Word) (t : State) : Prop :=
  t.reads = (if t.status ≠ .fault then 6 else if t.errCode = .modifyPosition then 2
    else if t.errCode = .argumentPosition then (if t.errInfo0 = p + 1 then 3 else 5) else 6) ∧
  t.writes = (if t.status = .fault then 0 else 1)

theorem ofNat_pc_add_one (p : Word) : BitVec.ofNat 64 (p.toNat + 1) = p + 1#64 := by simp [BitVec.ofNat_add]

theorem ofNat_pc_add_two_ne (p : Word) : BitVec.ofNat 64 (p.toNat + 2) ≠ p + 1#64 := by simp [BitVec.ofNat_add]

/-- An ADD or MUL that stores its result comes to RUNNING or IDLE (R80, R116). -/
theorem proceed_memWrite_status_ne_fault {s u : State} (hr : s.status = .running) (hu : Scratch s u) (i : Nat)
    (v : Word) : (proceed (memWrite i v u)).status ≠ .fault := by
  have hs : (proceed (memWrite i v u)).status = s.statusAfterProceed := by rw [hu.same]; rfl
  rw [hs]
  rcases statusAfterProceed_cases hr with ⟨-, e⟩ | ⟨-, e⟩ <;> simp [e]

/-- `Arith`, coming after the fetch alone, makes the transactions of R49 up to where it ends. -/
theorem arith_counts (f : Word → Word → Word) {a b d : Word} {s t : State} (h3 : s.pc.toNat + 3 < s.len.toNat)
    (hr : s.status = .running) (hreads : s.reads = 1) (hwrites : s.writes = 0)
    (ht : (arith f (some a) (some b) (some d) s).toOutcome = .next t) : ArithCounts s.pc t := by
  rw [arith_eq, if_neg h3.not_gt, if_neg h3.ne] at ht
  split at ht
  next => -- the destination check fails
    cases ht
    simp [ArithCounts, HwFault.kind, hreads, hwrites]
  split at ht
  next => -- the check of operand 1 fails
    cases ht
    simp [ArithCounts, HwFault.kind, HwFault.info0, ofNat_pc_add_one, hreads, hwrites]
  split at ht
  next => cases ht
  next va _ =>
    split at ht
    next => -- the check of operand 2 fails
      cases ht
      simp [ArithCounts, HwFault.kind, HwFault.info0, ofNat_pc_add_two_ne, hreads, hwrites]
    split at ht
    next => cases ht
    next vb _ =>
      split at ht
      next => -- the write is at LEN
        cases ht
        simp [ArithCounts, HwFault.kind, hreads, hwrites]
      next => -- the result is stored
        cases ht
        have hs := proceed_memWrite_status_ne_fault hr (scratch_beforeWrite f a b d va vb s) d.toNat (f va vb)
        rw [ArithCounts, if_pos hs, if_neg hs]
        simp [hreads, hwrites]

/-- Where the opcode cell is there, the step is R77's dispatch after the fetch. -/
theorem step_eq_dispatchSlot {s : State} {op : Word} (hat : AtInstruction s)
    (hop : s.programCell s.pc.toNat = some op) : step s = dispatchSlot (s.tick.fetched op) := by
  obtain ⟨hlt, hread⟩ := programCell_some hop
  rw [step_atInstruction hat, stepAtPc_some (s := s.tick) hlt hread]

/-- Where the decoder has an opcode to examine, the opcode cell is there. -/
theorem exists_opcode_of_decode {s : State} (h : decode s.slotCells ≠ .error .noOpcodeCell) :
    ∃ op, s.programCell s.pc.toNat = some op := by
  cases hop : s.programCell s.pc.toNat with
  | some op => exact ⟨op, rfl⟩
  | none =>
    have hnil : s.slotCells = [] := by simp [State.slotCells, Config.stride, State.cellsFrom, hop]
    exact absurd (by rw [hnil, decode]) h

/-- An ADD or MUL is decoded only where its whole slot is below LEN (R54). -/
theorem slot_inside_of_decode {s : State} {i : Instr} {a b d : Word} (h : i = .add a b d ∨ i = .mul a b d)
    (hi : decode s.slotCells = .instr i) : s.pc.toNat + 3 < s.len.toNat := by
  obtain ⟨op, -, ⟨-, rfl⟩ | ⟨_, _, _, -, -, hd, -⟩⟩ := decode_slot hi
  · rcases h with h | h <;> cases h
  · exact (programCell_some hd).1

/-- The counts of an ADD or MUL decoded at PC. -/
theorem step_arithCounts {s t : State} {i : Instr} {a b d : Word} (hat : AtInstruction s) (ht : step s = .next t)
    (h : i = .add a b d ∨ i = .mul a b d) (hi : decode s.slotCells = .instr i) : ArithCounts s.pc t := by
  obtain ⟨op, -, hstep⟩ := stepRunsDecodedInstruction s i hat hi
  obtain ⟨f, e⟩ := exec_eq_arith h (s.tick.fetched op)
  rw [hstep, e] at ht
  exact arith_counts (s := s.tick.fetched op) f (slot_inside_of_decode h hi) hat.1 (fetched_tick_reads op s)
    (fetched_tick_writes op s) ht

/-- The counts of a HLT decoded at PC: the fetch, and the read of cell 0 that ends the run (R80). -/
theorem step_hltCounts {s t : State} (hat : AtInstruction s) (ht : step s = .next t)
    (hi : decode s.slotCells = .instr .hlt) : t.reads = 2 ∧ t.writes = 0 := by
  obtain ⟨op, -, hstep⟩ := stepRunsDecodedInstruction s .hlt hat hi
  rw [hstep] at ht
  cases h0 : s.mem.read 0 with
  | none => cases ht.symm.trans (finish_none (s := s.tick.fetched op) .halted h0)
  | some v =>
    cases ht.symm.trans (hltCompletes (s.tick.fetched op) v h0)
    exact ⟨rfl, rfl⟩

/-- The counts of an opcode that is not in the table: the fetch alone. -/
theorem step_unknownCounts {s t : State} {v : Word} (hat : AtInstruction s) (ht : step s = .next t)
    (hv : decode s.slotCells = .error (.unknownOpcode v)) : t.reads = 1 ∧ t.writes = 0 := by
  obtain ⟨op, hop⟩ := exists_opcode_of_decode (s := s) (by simp [hv])
  rw [step_eq_dispatchSlot hat hop, dispatchSlot, fetched_slotCells, tick_slotCells, hv] at ht
  cases ht
  exact ⟨rfl, rfl⟩

/-- Settles O25: kind by kind, the transactions up to where the step ends. -/
theorem transactionCounts : Obligations.TransactionCounts := by
  intro s t hat ht
  refine ⟨fun a b d h => ?_, step_hltCounts hat ht, fun v => step_unknownCounts hat ht⟩
  rcases h with hi | hi
  · exact step_arithCounts hat ht (.inl rfl) hi
  · exact step_arithCounts hat ht (.inr rfl) hi

/-! ### The load sequence (R112) -/

/-- In IDLE with no reset to come, the host about to do `acts`. -/
structure IdleBefore (acts : List HostAction) (s : State) : Prop where
  status : s.status = .idle
  resets : s.resets = []
  host : s.host = acts

theorem IdleBefore.atHostAction {act : HostAction} {rest : List HostAction} {s : State}
    (h : IdleBefore (act :: rest) s) : AtHostAction s act rest :=
  ⟨by simp [h.status], by rw [State.resetDue, h.resets], h.host⟩

theorem IdleBefore.serving {act : HostAction} {rest : List HostAction} {s : State} (h : IdleBefore (act :: rest) s) :
    IdleBefore rest (s.serving rest) :=
  ⟨h.status, by simp [State.serving, State.tick, h.resets], rfl⟩

/-- The host's write of a cell below MEM_DEPTH is taken. -/
theorem IdleBefore.step_writeCell {i : Nat} {v : Word} {rest : List HostAction} {s : State}
    (h : IdleBefore (.writeCell i v :: rest) s) (hi : i < s.memDepth) :
    ∃ t, step s = .next t ∧ IdleBefore rest t ∧ t.mem = s.mem.write i v ∧ t.memDepth = s.memDepth := by
  have e : serve (.writeCell i v) (s.serving rest) = { s.serving rest with mem := s.mem.write i v } :=
    if_pos ⟨h.status, hi⟩
  refine ⟨_, step_serving h.atHostAction, ?_⟩
  rw [e]
  exact ⟨{ h.serving with }, rfl, rfl⟩

/-- The host's write of LEN is taken. -/
theorem IdleBefore.step_writeLen {v : Word} {rest : List HostAction} {s : State}
    (h : IdleBefore (.writeReg .len v :: rest) s) : step s = .next { s.serving rest with len := v } := by
  have e : serve (.writeReg .len v) (s.serving rest) = { s.serving rest with len := v } := if_pos h.status
  rw [step_serving h.atHostAction, e]

/-- Step 1 of R112: one step for each cell, and the cells lie in order from `i` on. -/
theorem IdleBefore.run_loadCells {rest : List HostAction} (cells : List Word) {i : Nat} {s : State}
    (h : IdleBefore (loadCells i cells ++ rest) s) (hb : i + cells.length ≤ s.memDepth) :
    ∃ t : State, (∀ k, Sys2Proof.core.run (cells.length + k) s = Sys2Proof.core.run k t) ∧ IdleBefore rest t ∧
      t.mem = placeSlot i cells s.mem ∧ t.memDepth = s.memDepth := by
  induction cells generalizing i s with
  | nil => exact ⟨s, fun k => by rw [List.length_nil, Nat.zero_add], h, rfl, rfl⟩
  | cons c cs ih =>
    rw [List.length_cons] at hb
    obtain ⟨u, hstep, hu, hum, hud⟩ := IdleBefore.step_writeCell h (by omega)
    obtain ⟨t, hrun, ht, htm, htd⟩ := ih hu (by omega)
    refine ⟨t, fun k => ?_, ht, by rw [htm, hum, placeSlot], htd.trans hud⟩
    rw [List.length_cons, Nat.add_right_comm, run_succ hstep, hrun]

/-- The cells placed from `p` on are found there. -/
theorem read_placeSlot (cells : List Word) (m : Memory) (p : Nat) {k : Nat} (hk : k < cells.length) :
    (placeSlot p cells m).read (p + k) = cells[k]? := by
  induction cells generalizing p m k with
  | nil => cases hk
  | cons c cs ih =>
    cases k with
    | zero =>
      have hbelow := read_placeSlot_below cs (m.write p c) (Nat.lt_succ_self p)
      exact hbelow.trans (read_write_same m p c)
    | succ k =>
      rw [placeSlot, List.getElem?_cons_succ, ← ih _ (p + 1) (Nat.lt_of_succ_lt_succ hk), Nat.add_right_comm]
      rfl

/-- Settles O50: the cells by `run_loadCells`, then LEN, which the length of a legal image fits. -/
theorem loadScriptLoads : Obligations.LoadScriptLoads := by
  intro s cells command hs hr hh hw
  obtain ⟨-, hmax, hne, hfit⟩ := imageWf_iff.mp hw
  unfold Config.maxDepth at hmax
  have hpos : 0 < cells.length := List.length_pos_iff.mpr hne
  have hlen : (BitVec.ofNat 64 cells.length).toNat = cells.length := by
    rw [BitVec.toNat_ofNat, Nat.mod_eq_of_lt (by omega)]
  obtain ⟨u, hrun, hu, hum, hud⟩ := IdleBefore.run_loadCells cells (i := 0) ⟨hs, hr, hh⟩ (by omega)
  have hread (i : Nat) (hi : i < cells.length) : u.mem.read i = cells[i]? := by
    rw [hum, ← read_placeSlot cells s.mem 0 hi, Nat.zero_add]
  refine ⟨_, (hrun 1).trans (run_succ hu.step_writeLen 0), hu.status, hlen, hread, ?_, ?_, rfl⟩
  · intro i hi
    have hi' : i < cells.length := hlen ▸ hi
    have hsome : (u.mem.read i).isSome := by rw [hread i hi', List.getElem?_eq_getElem hi', Option.isSome_some]
    exact hsome
  · exact ⟨hlen.symm ▸ hpos, hlen.symm ▸ hud.symm ▸ hfit⟩

/-! ### Reset (R109 to R111) -/

/-- Settles O37: a reset that is due comes before everything else, and is `hardReset`. -/
theorem resetInAnyState : Obligations.ResetInAnyState := by
  intro s later h
  have hdue : s.resetDue = true := by simp [State.resetDue, h]
  have htail : (hardReset s).resets = later := congrArg List.tail h
  exact ⟨hardReset s, step_reset hdue, rfl, rfl, rfl, rfl, rfl, rfl, rfl, rfl, rfl, read_nil, rfl, rfl, htail, rfl⟩

/-! ### The commands (R113 to R117) -/

theorem writeCmd_start {v : Word} {s : State} (hv : v.toNat % 8 = 1) (hi : s.status = .idle) :
    writeCmd v s = startCommand s := by simp [writeCmd_eq, hv, hi]

theorem writeCmd_startNv {v : Word} {s : State} (hv : v.toNat % 8 = 2) (hi : s.status = .idle) :
    writeCmd v s = startNvCommand s := by simp [writeCmd_eq, hv, hi]

theorem writeCmd_step {v : Word} {s : State} (hv : v.toNat % 8 = 3) (hi : s.status = .idle) :
    writeCmd v s = stepCommand s := by simp [writeCmd_eq, hv, hi]

theorem writeCmd_clear {v : Word} {s : State} (hv : v.toNat % 8 = 4) (hr : s.status ≠ .running) :
    writeCmd v s = clearCommand s := by simp [writeCmd_eq, hv, hr]

/-- A launch command's length test (R93), which comes before everything else. -/
theorem eq_ite_of_lenIllegal {s x y z : State}
    (h : (s.lenIllegal = true ∧ x = y) ∨ (s.lenIllegal = false ∧ x = z)) :
    x = if s.len = 0 ∨ s.len.toNat > s.memDepth then y else z := by
  rcases h with ⟨hl, e⟩ | ⟨hl, e⟩
  · rw [if_pos (lenIllegal_iff.mp hl), e]
  · rw [if_neg (mt lenIllegal_iff.mpr (by simp [hl])), e]

/-- Settles O39: the two branches of START. -/
theorem startLaunches : Obligations.StartLaunches := by
  intro s v rest h hi hv
  rw [step_serving h, serve, writeReg, writeCmd_start (s := s.serving rest) hv hi]
  exact congrArg _ (eq_ite_of_lenIllegal (startCommand_cases (s.serving rest)))

/-- Settles O40: the three branches of START_NV; the position that its own test records is LEN. -/
theorem startNvLaunches : Obligations.StartNvLaunches := by
  intro s v rest h hi hv
  rw [step_serving h, serve, writeReg, writeCmd_startNv (s := s.serving rest) hv hi]
  refine congrArg _ (eq_ite_of_lenIllegal (s := s.serving rest) ?_)
  rcases startNvCommand_cases (s.serving rest) with illegal | ⟨hl, h4, e⟩ | ⟨hl, h4, e⟩
  · exact .inl illegal
  · have hinfo : (HwFault.programPosition (s.serving rest).len.toNat).info0 = s.len := BitVec.ofNat_toNat ..
    rw [takeFault, hinfo] at e
    exact .inr ⟨hl, e.trans (if_pos (c := s.len.toNat ≤ 4) h4).symm⟩
  · exact .inr ⟨hl, e.trans (if_neg (c := s.len.toNat ≤ 4) h4.not_ge).symm⟩

/-- Settles O41: the two branches of STEP. -/
theorem stepCommandLaunches : Obligations.StepCommandLaunches := by
  intro s v rest h hi hv
  rw [step_serving h, serve, writeReg, writeCmd_step (s := s.serving rest) hv hi]
  exact congrArg _ (eq_ite_of_lenIllegal (stepCommand_cases (s.serving rest)))

/-- Settles O42: CLEAR is accepted in every state in which the host is served. -/
theorem clearReturnsToIdle : Obligations.ClearReturnsToIdle := by
  intro s v rest h hv
  rw [step_serving h, serve, writeReg, writeCmd_clear (s := s.serving rest) hv h.1]
  rfl

end Sys2Proof.Machine
